-- ==== Sys2Proof/Word.lean ====
section
/-! DEFINITION. The word types of WYCORE (rules R5, R7): every value is an unsigned bit vector. -/

-- One declaration after the other: each further thread of Lean reserves its whole stack.
set_option Elab.async false

namespace Sys2Proof

/-- A 64-bit word: operands, secret words, seeds and results (R5). -/
abbrev Word := BitVec 64

/-- A 32-bit word: the request header and the accumulators of the 32-bit pipeline (R5, R60). -/
abbrev Half := BitVec 32

/-- One byte of the platform's memory (R31, R40). -/
abbrev Byte := BitVec 8

end Sys2Proof
end

