-- ==== Sys2Proof/Config.lean ====
section
/-! DEFINITION. The parameters of rule R6 as plain data, and the free values of the model.

A parameter that the spec leaves open is a field of `Config`; `State` carries one `Config`, so a claim about every
state is a claim about every value of every parameter.  No step changes it (R27).  The defaults the spec
transcribes stand in Machine/Constants.lean. -/

namespace Sys2Proof

/-- The five words of a secret, `secret[0..4]` (R5, R24). -/
structure SecretBank where
  w0 : Word
  w1 : Word
  w2 : Word
  w3 : Word
  w4 : Word
deriving DecidableEq, Repr

/-- `RANDOM_PARTNER` (R6, R141) as plain data.  The spec makes it an arbitrary total function from 64-bit values to
64-bit values; every such function is some `Partner`: `exceptions` lists the seeds whose partner is not
`seed ^ xorWith` (the statement `EveryPartnerFunctionIsAllowed` says that nothing is lost).  The spec's default lists no exception. -/
structure Partner where
  xorWith    : Word
  exceptions : List (Word × Word)
deriving DecidableEq, Repr

/-- A range of the platform's address space whose reads have side effects (R48). -/
structure Region where
  base : Nat
  size : Nat
deriving DecidableEq, Repr

/-- The parameters a model takes as named configuration fields (R6), with the platform's map of memory that has
read side effects (R48, R50).  `MemRead` is not here: what it returns may change as the machine runs (R40), so it is
the field `mem` of `State`. -/
structure Config where
  /-- `DEFAULT_SECRET[0..4]` (R6, U13). -/
  defaultSecret : SecretBank
  /-- `HASH32_MOD1` (R6, R120). -/
  hash32Mod1 : Word
  /-- `HASH32_MOD2` (R6, R120). -/
  hash32Mod2 : Word
  /-- `RANDOM_PARTNER` (R6, R141). -/
  partner : Partner
  /-- `NUM_PORTS`, at least 1 (R6, R192). -/
  numPorts : Nat
  /-- Where the platform's memory has read side effects (R48). -/
  sideEffectRegions : List Region
deriving DecidableEq, Repr

/-- FREE VALUE (R204, log entry 5): the result of a command whose read set changed between its request and its
response, before it is cut to the command's result width.  Applied to the counter `State.draws`. -/
opaque Config.freeResult : Nat → Word

/-- FREE VALUE (R193, R194, log entry 6): how many requests of other ports the arbiter lets pass before a newly
accepted one, when no request that was accepted earlier is due.  Applied to the counter `State.draws`. -/
opaque Config.arbiterWait : Nat → Nat

end Sys2Proof
end

