-- ==== Sys2Proof/Machine/Constants.lean ====
section
/-! DEFINITION. The parameters of R6 at their defaults, and `PRNG_MOD`.  No command writes them and reset does not
change them (R27). -/

namespace Sys2Proof.Machine

/-- `PRNG_MOD`, the first word of the default secret (R6); the programmable `SECRET[0]` has no part in it (R142). -/
def prngMod (cfg : Config) : Word := cfg.defaultSecret.w0

/-- The parameters at their defaults (R6).  The default secret is transcribed from R6, which calls the literals
unaudited (U13, log entry 1).  PRESUMED for `HASH32_MOD1`, `HASH32_MOD2` and `RANDOM_PARTNER` (log entries 2 and 3, the
spec's own "from general knowledge"), DESIGN CHOICE for `NUM_PORTS` and the side-effect map (log entries 4 and 8). -/
def defaultConfig : Config where
  defaultSecret :=
    ⟨0xa0761d6478bd642f, 0xe7037ed1a0b428db, 0x8ebc6af09c88c6e3, 0x589965cc75374cc3, 0x1d8e4e27c47d124f⟩
  hash32Mod1 := 0x0000000053c5ca59
  hash32Mod2 := 0x0000000074743c1b
  partner := ⟨0xe7037ed1a0b428db, []⟩
  numPorts := 2
  sideEffectRegions := []

end Sys2Proof.Machine
end

