-- ==== Sys2Proof/Syntax.lean ====
section
/-! DEFINITION. The commands of WYCORE (R65), the request packet (R60) and the pseudo-instructions (R70). -/

namespace Sys2Proof

/-- The six packet formats (R63). -/
inductive Format where
  | h0 | h0x | h1 | h1x | h2 | h3
deriving DecidableEq, Repr

/-- The 17 rows of the opcode map (R65), without their operands. -/
inductive Opcode where
  | nop | mix | read32 | read64 | tail
  | hash64 | hash64d | hash32
  | random | xcreate | xnext | xinto | screate | snext | sinto
  | setsec | getsec
deriving DecidableEq, Repr

/-- A command with its operands: one constructor per row of the opcode table.  Operands stand in packet order
(R63, R64); `idx` is the 3-bit header field `IDX`, which only SETSEC and GETSEC have (R61). -/
inductive Instr where
  /-- NOP (R170). -/
  | nop
  /-- MIX (R87). -/
  | mix (left right : Word)
  /-- READ32 (R84). -/
  | read32 (addr len off : Word)
  /-- READ64 (R85). -/
  | read64 (addr len off : Word)
  /-- TAIL (R86). -/
  | tail (addr len : Word)
  /-- HASH64 (R107). -/
  | hash64 (addr len seed : Word)
  /-- HASH64D (R108). -/
  | hash64d (addr len seed : Word)
  /-- HASH32 (R124); bits 63:32 of `seed` are ignored (R64). -/
  | hash32 (addr len seed : Word)
  /-- RANDOM (R143). -/
  | random (seed : Word)
  /-- XCREATE (R144). -/
  | xcreate (seed : Word)
  /-- XNEXT (R145). -/
  | xnext
  /-- XINTO (R146). -/
  | xinto
  /-- SCREATE (R147). -/
  | screate (seed : Word)
  /-- SNEXT (R148). -/
  | snext
  /-- SINTO (R149). -/
  | sinto
  /-- SETSEC (R171). -/
  | setsec (idx : BitVec 3) (value : Word)
  /-- GETSEC (R172). -/
  | getsec (idx : BitVec 3)
deriving DecidableEq, Repr

/-- A request packet: the header word and the operand doublewords that follow it (R60). -/
structure Packet where
  header   : Half
  operands : List Word
deriving DecidableEq, Repr

/-- Why a header is ILLEGAL: the five outcomes of the decode procedure (R66). -/
inductive Illegal where
  /-- A bit of 31:14 or bit 11 is 1. -/
  | reservedBits
  /-- `OPC` is in no row of R65. -/
  | reservedOpcode
  /-- `NOPS` is not the opcode's. -/
  | operandCount
  /-- SETSEC or GETSEC with `IDX` above 4. -/
  | secretIndex
  /-- A nonzero `IDX` on an opcode that has none. -/
  | idxOnNonIndexed
deriving DecidableEq, Repr

/-- The three pseudo-instructions of the assembler (R70). -/
inductive Pseudo where
  | ldsecret (v0 v1 v2 v3 v4 : Word)
  | defsecret
  | defaulthash (addr len seed : Word)
deriving DecidableEq, Repr

end Sys2Proof
end

