-- ==== Sys2Proof/Machine/State.lean ====
section
/-! DEFINITION. The state of WYCORE, of its request ports and of the platform around it, as plain data. -/

namespace Sys2Proof.Machine

/-- The status of a response (R181); its 8-bit code is `statusCode` of Flags.lean. -/
inductive Status where
  | ok | illegal | range | bounds | bus
deriving DecidableEq, Repr

/-- A response: status and result (R181). -/
structure Response where
  status : Status
  result : Word
deriving DecidableEq, Repr

/-- A response on the port it was sent to (R192). -/
structure Delivery where
  port     : Nat
  response : Response
deriving DecidableEq, Repr

/-- A request in flight on a port (R30). -/
structure Request where
  port   : Nat
  packet : Packet
  /-- A byte of its read set was written by another agent since the request was accepted (R204). -/
  torn   : Bool
  /-- How many requests the arbiter may still take before this one, if no earlier one is due (R193, R194). -/
  waits  : Nat
deriving DecidableEq, Repr

/-- Who moves in a step.  WYCORE's one agent is the arbiter; the rest is the world outside it. -/
inductive Turn where
  /-- The arbiter takes one request and WYCORE executes it (R193). -/
  | arbiter
  /-- A requester puts words on a request port (R60). -/
  | send (port : Nat) (beats : List Word)
  /-- The platform, or another agent through it, changes what an address reads as: a byte, or `none` for `BusFault`
  (R40, R52). -/
  | platform (addr : Word) (cell : Option Byte)
  /-- Reset is asserted (R201). -/
  | reset
deriving DecidableEq, Repr

/-- What stops the machine as an impossible event. -/
inductive Fault where
  /-- Raised by a `Turn.send` that names a port WYCORE does not have (R192, log entry 14).  Safe: nothing goes on from it. -/
  | noSuchPort
deriving DecidableEq, Repr

/-- What the model gives no meaning. -/
inductive Refusal where
  /-- An arm of `exec` that has no meaning yet; no arm is left so.  Safe. -/
  | notModelled (mnemonic : String)
  /-- Raised by a buffer-reading command whose read set touches memory with read side effects (R48: "A model refuses
  it").  Safe (log entry 16). -/
  | sideEffectRead
  /-- Raised by `Turn.reset` while a request is in flight (R201: "A model refuses any run in which reset is asserted
  while a request is in flight").  Safe (log entry 15). -/
  | resetInFlight
deriving DecidableEq, Repr

/-- The platform's memory as WYCORE sees it: `MemRead` (R40) as a list of (address, byte).  An address that is not
listed reads as `BusFault`.  `memoryWf` of Ops.lean says the canonical form. -/
abbrev Memory := List Host.Cell

/-- Everything the spec gives the machine, and the model's own fields (log entry 17). -/
structure State where
  /-- `SECRET[0..4]` (R24). -/
  secret : SecretBank
  /-- `XSEED` (R25). -/
  xseed : Word
  /-- `SSEED` (R26). -/
  sseed : Word
  /-- The platform's memory (R31, R40). -/
  mem : Memory
  /-- The parameters (R6); constant (R27). -/
  cfg : Config
  /-- The requests in flight, at most one a port, in the order they were accepted (R30, R193). -/
  inFlight : List Request
  /-- Words that requesters hold at ports and that the ports have not consumed, each with its port, oldest first
  (R62, R193). -/
  held : List (Nat × Word)
  /-- The response of the command that executes; `none` between steps (R181, R193). -/
  answer : Option Response
  /-- The read set of the command that executes was written since its request was accepted (R204). -/
  torn : Bool
  /-- The responses sent so far, oldest first: what the requesters see (R30, R192). -/
  sent : List Delivery
  /-- The turns to come, first the next; when there is none, the arbiter moves (log entry 9). -/
  agenda : List Turn
  /-- The model's own counter: how many free values have been drawn. -/
  draws : Nat
deriving DecidableEq, Repr

/-- The machine right after reset (R200, R201); what is not WYCORE's (memory, parameters, the world's turns) stands
at the values that log entries 1 to 4, 8, 9 and 10 name. -/
def State.reset : State where
  secret := defaultConfig.defaultSecret
  xseed := 0
  sseed := prngMod defaultConfig
  mem := []
  cfg := defaultConfig
  inFlight := []
  held := []
  answer := none
  torn := false
  sent := []
  agenda := []
  draws := 0

end Sys2Proof.Machine
end

