-- ==== Sys2Proof/Machine/Ops.lean ====
section
/-! DEFINITION. The named operations over memory, the secret bank, the seeds and the response. -/

namespace Sys2Proof.Machine

/-! ## Memory (R31, R40) -/

/-- `MemRead(addr, 1)` (R40): the byte at an address, or `none` for `BusFault`. -/
def memRead : Memory → Nat → Option Byte
  | [], _ => none
  | (k, b) :: rest, a => if a = k then some b else memRead rest a

/-- What a listing becomes when address `a`, which comes before all of it, is to read as `cell`. -/
def memPut (a : Nat) (cell : Option Byte) (rest : Memory) : Memory :=
  match cell with
  | none => rest
  | some b => (a, b) :: rest

/-- The platform makes an address read as a byte, or as `BusFault` (`none`); the listing stays canonical. -/
def memSet : Memory → Nat → Option Byte → Memory
  | [], a, cell => memPut a cell []
  | (k, b) :: rest, a, cell =>
    if a < k then memPut a cell ((k, b) :: rest)
    else if a = k then memPut a cell rest
    else (k, b) :: memSet rest a cell

/-- Addresses strictly rising, none below `low` or outside the address space of 2^64 bytes (R31). -/
def memoryFrom (low : Nat) : Memory → Bool
  | [] => true
  | (k, _) :: rest => decide (low ≤ k) && decide (k < 2 ^ 64) && memoryFrom (k + 1) rest

/-- The canonical form of a memory.  An unlisted address reads as `BusFault` and a listed one as a byte, so no entry
equals what an unlisted address reads as. -/
def Memory.wf (m : Memory) : Bool := memoryFrom 0 m

/-- The `n` bytes from address `a` on, or `none` if `MemRead` gives `BusFault` for one of them (R41, R185). -/
def readBytes (m : Memory) (a : Nat) : Nat → Option (List Byte)
  | 0 => some []
  | n + 1 =>
    match memRead m a with
    | none => none
    | some b =>
      match readBytes m (a + 1) n with
      | none => none
      | some bs => some (b :: bs)

/-- A byte of `[lo, lo + n)` lies in a region. -/
def regionTouched (lo n : Nat) (r : Region) : Bool := decide (max lo r.base < min (lo + n) (r.base + r.size))

/-- A byte of `[lo, lo + n)` has read side effects (R48). -/
def touchesSideEffect (cfg : Config) (lo n : Nat) : Bool := cfg.sideEffectRegions.any (regionTouched lo n)

/-! ## The secret bank (R24) -/

/-- `SECRET[idx]`; `IDX` 5 to 7 names no register. -/
def secretGet (b : SecretBank) (idx : BitVec 3) : Option Word :=
  match idx.toNat with
  | 0 => some b.w0
  | 1 => some b.w1
  | 2 => some b.w2
  | 3 => some b.w3
  | 4 => some b.w4
  | _ => none

/-- `SECRET[idx] <- v`; `IDX` 5 to 7 names no register. -/
def secretSet (b : SecretBank) (idx : BitVec 3) (v : Word) : Option SecretBank :=
  match idx.toNat with
  | 0 => some { b with w0 := v }
  | 1 => some { b with w1 := v }
  | 2 => some { b with w2 := v }
  | 3 => some { b with w3 := v }
  | 4 => some { b with w4 := v }
  | _ => none

/-! ## State writes (R9) -/

/-- `SECRET` becomes the bank `b`. -/
def State.setSecret (s : State) (b : SecretBank) : State := { s with secret := b }

/-- `XSEED <- v`. -/
def State.setXseed (s : State) (v : Word) : State := { s with xseed := v }

/-- `SSEED <- v`. -/
def State.setSseed (s : State) (v : Word) : State := { s with sseed := v }

/-- One free value has been drawn. -/
def State.drew (s : State) : State := { s with draws := s.draws + 1 }

/-- `respond(OK, v)` (R9): the command succeeds with result `v`. -/
def State.respond (s : State) (v : Word) : State := { s with answer := some ⟨.ok, v⟩ }

/-- `raise status` (R9, R180, R187), WYCORE's only exception: the response has that status and result 0, and
nothing else happens.  There is no trap, no saved state and no return (R187, R188). -/
def State.raise (s : State) (status : Status) : State := { s with answer := some ⟨status, 0⟩ }

/-- A value cut to a result width and zero-extended (R204). -/
def cutTo (width : Nat) (v : Word) : Word := (v.setWidth width).setWidth 64

/-- The response of a command that has read memory and computed `v`.  If its read set was written since the request
was accepted, the result is any value of the command's result width and the status is unchanged (R204). -/
def State.respondRead (s : State) (width : Nat) (v : Word) : State :=
  if s.torn then (s.respond (cutTo width (Config.freeResult s.draws))).drew else s.respond v

end Sys2Proof.Machine
end

