-- ==== Sys2Proof/Machine/Control.lean ====
section
/-! DEFINITION. The control commands NOP, SETSEC and GETSEC (R170 to R172). -/

namespace Sys2Proof.Machine

/-- NOP (R170). -/
def execNop (s : State) : Host.Outcome State Fault Refusal := .next (s.respond 0)

/-- SETSEC (R171): `IDX` 5 to 7 is ILLEGAL and writes nothing (log entry 18). -/
def execSetsec (idx : BitVec 3) (value : Word) (s : State) : Host.Outcome State Fault Refusal :=
  match secretSet s.secret idx value with
  | some bank => .next ((s.setSecret bank).respond 0)
  | none => .next (s.raise .illegal)

/-- GETSEC (R172): `IDX` 5 to 7 is ILLEGAL. -/
def execGetsec (idx : BitVec 3) (s : State) : Host.Outcome State Fault Refusal :=
  match secretGet s.secret idx with
  | some v => .next (s.respond v)
  | none => .next (s.raise .illegal)

end Sys2Proof.Machine
end

