-- ==== Sys2Proof/Machine/Flags.lean ====
section
/-! DEFINITION. WYCORE has no flags (R23).  Its only per-command status is the one in the response; here are the
status codes (R181) and the tests that decide a buffer-reading command's status before memory is read (R183, R184). -/

namespace Sys2Proof.Machine

/-- The 8-bit status codes (R181). -/
def statusCode : Status → BitVec 8
  | .ok => 0x00
  | .illegal => 0x01
  | .range => 0x02
  | .bounds => 0x03
  | .bus => 0x04

/-- RANGE: the buffer wraps the address space, in exact integers (R183). -/
def rangeFails (addr len : Word) : Bool := decide (addr.toNat + len.toNat > 2 ^ 64)

/-- BOUNDS of READ32 (`n = 4`) and READ64 (`n = 8`): the window does not lie inside the buffer, in exact integers
(R184). -/
def boundsFails (len off : Word) (n : Nat) : Bool := decide (off.toNat + n > len.toNat)

/-- BOUNDS of TAIL: the length is not in 1..3 (R184). -/
def tailFails (len : Word) : Bool := decide (len.toNat < 1) || decide (len.toNat > 3)

end Sys2Proof.Machine
end

