-- ==== Sys2Proof/Machine/Operands.lean ====
section
/-! DEFINITION. The buffer operand (R41): its readers (R80 to R82), the mix primitive (R83), and the one operation
through which every command reads memory (R185, R48, R204). -/

namespace Sys2Proof.Machine

/-! ## Readers -/

/-- `buf[i]` (R9). -/
def byteAt (buf : List Byte) (i : Nat) : Byte := buf.getD i 0

/-- `n` bytes from offset `o` on as a little-endian number of `w` bits (R42). -/
def readLE (w : Nat) (buf : List Byte) (o : Nat) : Nat → BitVec w
  | 0 => 0
  | n + 1 => (byteAt buf o).setWidth w ||| readLE w buf (o + 1) n <<< 8

/-- `rd64(buf, o)` (R80). -/
def rd64 (buf : List Byte) (o : Nat) : Word := readLE 64 buf o 8

/-- `rd32(buf, o)` (R81). -/
def rd32 (buf : List Byte) (o : Nat) : Half := readLE 32 buf o 4

/-- `tail3(buf, p, k)` (R82). -/
def tail3 (buf : List Byte) (p k : Nat) : Half :=
  (byteAt buf p).setWidth 32 <<< 16 ||| (byteAt buf (p + k / 2)).setWidth 32 <<< 8
    ||| (byteAt buf (p + k - 1)).setWidth 32

/-- `mix(left, right)`: the exact 128-bit product, its halves folded by exclusive or (R83). -/
def mix (left right : Word) : Word :=
  let t : BitVec 128 := left.setWidth 128 * right.setWidth 128
  t.extractLsb' 0 64 ^^^ t.extractLsb' 64 64

/-! ## Reading memory -/

/-- A command reads the `n` bytes from address `lo` on and answers `f` of them, a value of `width` bits.
A read set in memory with read side effects is refused (R48), a `BusFault` in it is BUS (R185). -/
def readWindow (s : State) (lo n width : Nat) (f : List Byte → Word) : Host.Outcome State Fault Refusal :=
  if touchesSideEffect s.cfg lo n then .refused .sideEffectRead
  else
    match readBytes s.mem lo n with
    | none => .next (s.raise .bus)
    | some buf => .next (s.respondRead width (f buf))

/-- The read set of READ32 and READ64 as a first address and a byte count; empty where RANGE or BOUNDS leaves none
(R47, R186). -/
def readerWindow (addr len off : Word) (n : Nat) : Nat × Nat :=
  if rangeFails addr len || boundsFails len off n then (0, 0) else (addr.toNat + off.toNat, n)

/-- The read set of TAIL (R47, R186). -/
def tailWindow (addr len : Word) : Nat × Nat :=
  if rangeFails addr len || tailFails len then (0, 0) else (addr.toNat, len.toNat)

/-- The read set of the hash commands: the whole buffer (R47, R186). -/
def hashWindow (addr len : Word) : Nat × Nat :=
  if rangeFails addr len then (0, 0) else (addr.toNat, len.toNat)

/-- The read set of a command (R47): a first address and a byte count. -/
def readSet : Instr → Nat × Nat
  | .nop => (0, 0)
  | .mix _ _ => (0, 0)
  | .read32 addr len off => readerWindow addr len off 4
  | .read64 addr len off => readerWindow addr len off 8
  | .tail addr len => tailWindow addr len
  | .hash64 addr len _ => hashWindow addr len
  | .hash64d addr len _ => hashWindow addr len
  | .hash32 addr len _ => hashWindow addr len
  | .random _ => (0, 0)
  | .xcreate _ => (0, 0)
  | .xnext => (0, 0)
  | .xinto => (0, 0)
  | .screate _ => (0, 0)
  | .snext => (0, 0)
  | .sinto => (0, 0)
  | .setsec _ _ => (0, 0)
  | .getsec _ => (0, 0)

/-- Address `a` is in the read set of `i` (R47). -/
def inReadSet (i : Instr) (a : Nat) : Bool :=
  decide ((readSet i).1 ≤ a) && decide (a < (readSet i).1 + (readSet i).2)

end Sys2Proof.Machine
end

