-- ==== Sys2Proof/Machine/Hash32.lean ====
section
/-! DEFINITION. The 32-bit hash pipeline (R120 to R123) and its command HASH32 (R124). -/

namespace Sys2Proof.Machine

/-- `mix32(a, b)` (R120): the 64-bit product modulo 2^64, cut into the new accumulators. -/
def mix32 (cfg : Config) (a b : Half) : Half × Half :=
  let c : Word := (a.setWidth 64 ^^^ cfg.hash32Mod1) * (b.setWidth 64 ^^^ cfg.hash32Mod2)
  (c.extractLsb' 0 32, c.extractLsb' 32 32)

/-- The working values of the 32-bit pipeline (R29); `see1` is the source's `seed_extra`. -/
structure Work32 where
  p    : Nat
  rem  : Nat
  seed : Half
  see1 : Half
deriving DecidableEq, Repr

/-- Re-mix the accumulators (R120). -/
def remix32 (cfg : Config) (w : Work32) : Work32 :=
  { w with seed := (mix32 cfg w.seed w.see1).1, see1 := (mix32 cfg w.seed w.see1).2 }

/-- 8-byte steps while `rem > 8` (R121).  `fuel` bounds their number; `rem` itself is enough. -/
def hash32Loop (cfg : Config) (buf : List Byte) : Nat → Work32 → Work32
  | 0, w => w
  | fuel + 1, w =>
    if w.rem > 8 then
      hash32Loop cfg buf fuel
        (remix32 cfg ⟨w.p + 8, w.rem - 8, w.seed ^^^ rd32 buf w.p, w.see1 ^^^ rd32 buf (w.p + 4)⟩)
    else w

/-- The remainder: head and tail word, or the tail reader into `seed` alone, or nothing (R121, R123). -/
def hash32Tail (buf : List Byte) (w : Work32) : Work32 :=
  if w.rem ≥ 4 then
    { w with seed := w.seed ^^^ rd32 buf w.p, see1 := w.see1 ^^^ rd32 buf (w.p + w.rem - 4) }
  else if w.rem > 0 then { w with seed := w.seed ^^^ tail3 buf w.p w.rem }
  else w

/-- The accumulators before the initial mix: the low and the high half of the length enter (R121, R122). -/
def hash32Start (len : Nat) (seed : Half) : Work32 :=
  ⟨0, len, seed ^^^ BitVec.ofNat 32 (len / 2 ^ 32), BitVec.ofNat 32 len⟩

/-- `hash32(buf, len, seed32)` (R121). -/
def hash32Value (cfg : Config) (buf : List Byte) (len : Nat) (seed : Half) : Half :=
  let looped := hash32Loop cfg buf len (remix32 cfg (hash32Start len seed))
  let done := remix32 cfg (remix32 cfg (hash32Tail buf looped))
  done.seed ^^^ done.see1

/-- HASH32 (R124); `seed[63:32]` is ignored. -/
def execHash32 (addr len seed : Word) (s : State) : Host.Outcome State Fault Refusal :=
  if rangeFails addr len then .next (s.raise .range)
  else readWindow s addr.toNat len.toNat 32 fun buf => (hash32Value s.cfg buf len.toNat (seed.setWidth 32)).setWidth 64

end Sys2Proof.Machine
end

