-- ==== Sys2Proof/Machine/Hash64.lean ====
section
/-! DEFINITION. The 64-bit hash pipeline (R100) and its commands HASH64 (R107) and HASH64D (R108). -/

namespace Sys2Proof.Machine

/-- The new `seed` of one 64-byte block at `p`; both mixes read the old `seed` (R100, R101). -/
def blockSeed (buf : List Byte) (sec : SecretBank) (p : Nat) (seed : Word) : Word :=
  mix (rd64 buf (p + 0) ^^^ sec.w1) (rd64 buf (p + 8) ^^^ seed)
    ^^^ mix (rd64 buf (p + 16) ^^^ sec.w2) (rd64 buf (p + 24) ^^^ seed)

/-- The new `seed_extra` of one 64-byte block at `p` (R100, R101). -/
def blockExtra (buf : List Byte) (sec : SecretBank) (p : Nat) (seedExtra : Word) : Word :=
  mix (rd64 buf (p + 32) ^^^ sec.w3) (rd64 buf (p + 40) ^^^ seedExtra)
    ^^^ mix (rd64 buf (p + 48) ^^^ sec.w4) (rd64 buf (p + 56) ^^^ seedExtra)

/-- The working values of the 64-bit pipeline (R29). -/
structure Work64 where
  p         : Nat
  rem       : Nat
  seed      : Word
  seedExtra : Word
deriving DecidableEq, Repr

/-- Phase 1: 64-byte blocks while `rem > 64` (R100).  `fuel` bounds the number of blocks; `rem` itself is enough. -/
def hash64Blocks (buf : List Byte) (sec : SecretBank) : Nat → Work64 → Work64
  | 0, w => w
  | fuel + 1, w =>
    if w.rem > 64 then
      hash64Blocks buf sec fuel
        ⟨w.p + 64, w.rem - 64, blockSeed buf sec w.p w.seed, blockExtra buf sec w.p w.seedExtra⟩
    else w

/-- Phase 2: 16-byte steps while `rem > 16` (R100). -/
def hash64Steps (buf : List Byte) (sec : SecretBank) : Nat → Work64 → Work64
  | 0, w => w
  | fuel + 1, w =>
    if w.rem > 16 then
      hash64Steps buf sec fuel
        ⟨w.p + 16, w.rem - 16, mix (rd64 buf w.p ^^^ sec.w1) (rd64 buf (w.p + 8) ^^^ w.seed), w.seedExtra⟩
    else w

/-- Phase 3, the inner mix on the remainder of `r` bytes at `p` (R100, R104). -/
def hash64Inner (buf : List Byte) (sec : SecretBank) (p r : Nat) (seed : Word) : Word :=
  if r > 8 then mix (rd64 buf p ^^^ sec.w0) (rd64 buf (p + r - 8) ^^^ seed)
  else if r ≥ 4 then
    mix ((rd32 buf p).setWidth 64 ^^^ sec.w0) ((rd32 buf (p + r - 4)).setWidth 64 ^^^ seed)
  else if r > 0 then mix ((tail3 buf p r).setWidth 64 ^^^ sec.w0) seed
  else mix sec.w0 seed

/-- `hash64(buf, len, seed, sec)` (R100).  The last `seed_extra` is dropped (R102); the outer mix takes the original
length (R103). -/
def hash64Value (buf : List Byte) (len : Nat) (seed : Word) (sec : SecretBank) : Word :=
  let blocks := hash64Blocks buf sec len ⟨0, len, seed, seed⟩
  let steps := hash64Steps buf sec blocks.rem blocks
  mix (sec.w1 ^^^ BitVec.ofNat 64 len) (hash64Inner buf sec steps.p steps.rem steps.seed)

/-- HASH64: the pipeline with the secret of the bank (R107). -/
def execHash64 (addr len seed : Word) (s : State) : Host.Outcome State Fault Refusal :=
  if rangeFails addr len then .next (s.raise .range)
  else readWindow s addr.toNat len.toNat 64 fun buf => hash64Value buf len.toNat seed s.secret

/-- HASH64D: the pipeline with the constant default secret (R108). -/
def execHash64d (addr len seed : Word) (s : State) : Host.Outcome State Fault Refusal :=
  if rangeFails addr len then .next (s.raise .range)
  else readWindow s addr.toNat len.toNat 64 fun buf => hash64Value buf len.toNat seed s.cfg.defaultSecret

end Sys2Proof.Machine
end

