-- ==== Sys2Proof/Machine/Primitives.lean ====
section
/-! DEFINITION. The commands of 40_primitives.md: MIX, READ32, READ64, TAIL (R84 to R87). -/

namespace Sys2Proof.Machine

/-- MIX (R87). -/
def execMix (left right : Word) (s : State) : Host.Outcome State Fault Refusal :=
  .next (s.respond (mix left right))

/-- READ32 (R84). -/
def execRead32 (addr len off : Word) (s : State) : Host.Outcome State Fault Refusal :=
  if rangeFails addr len then .next (s.raise .range)
  else if boundsFails len off 4 then .next (s.raise .bounds)
  else readWindow s (addr.toNat + off.toNat) 4 32 fun window => (rd32 window 0).setWidth 64

/-- READ64 (R85). -/
def execRead64 (addr len off : Word) (s : State) : Host.Outcome State Fault Refusal :=
  if rangeFails addr len then .next (s.raise .range)
  else if boundsFails len off 8 then .next (s.raise .bounds)
  else readWindow s (addr.toNat + off.toNat) 8 64 fun window => rd64 window 0

/-- TAIL (R86). -/
def execTail (addr len : Word) (s : State) : Host.Outcome State Fault Refusal :=
  if rangeFails addr len then .next (s.raise .range)
  else if tailFails len then .next (s.raise .bounds)
  else readWindow s addr.toNat len.toNat 24 fun buf => (tail3 buf 0 len.toNat).setWidth 64

end Sys2Proof.Machine
end

