-- ==== Sys2Proof/Machine/Prng.lean ====
section
/-! DEFINITION. The PRNG engine (R140 to R149): RANDOM, the exclusive channel and the shared channel. -/

namespace Sys2Proof.Machine

/-- `RANDOM_PARTNER(s)` (R141). -/
def partnerOf (partner : Partner) (s : Word) : Word :=
  match partner.exceptions.lookup s with
  | some v => v
  | none => s ^^^ partner.xorWith

/-- `random(s) = mix(s, RANDOM_PARTNER(s))` (R140). -/
def random (cfg : Config) (s : Word) : Word := mix s (partnerOf cfg.partner s)

/-- RANDOM (R143). -/
def execRandom (seed : Word) (s : State) : Host.Outcome State Fault Refusal :=
  .next (s.respond (random s.cfg seed))

/-- XCREATE stores the raw seed (R144). -/
def execXcreate (seed : Word) (s : State) : Host.Outcome State Fault Refusal :=
  .next ((s.setXseed seed).respond 0)

/-- XNEXT advances XSEED, then answers `random` of the advanced seed (R145). -/
def execXnext (s : State) : Host.Outcome State Fault Refusal :=
  .next ((s.setXseed (s.xseed + prngMod s.cfg)).respond (random s.cfg (s.xseed + prngMod s.cfg)))

/-- XINTO (R146). -/
def execXinto (s : State) : Host.Outcome State Fault Refusal :=
  .next (s.respond s.xseed)

/-- SCREATE stores the seed advanced once (R147). -/
def execScreate (seed : Word) (s : State) : Host.Outcome State Fault Refusal :=
  .next ((s.setSseed (seed + prngMod s.cfg)).respond 0)

/-- SNEXT: one fetch-and-add on SSEED, then `random` of the fetched seed (R148). -/
def execSnext (s : State) : Host.Outcome State Fault Refusal :=
  .next ((s.setSseed (s.sseed + prngMod s.cfg)).respond (random s.cfg s.sseed))

/-- SINTO (R149). -/
def execSinto (s : State) : Host.Outcome State Fault Refusal :=
  .next (s.respond s.sseed)

end Sys2Proof.Machine
end

