-- ==== Sys2Proof/Machine/Dispatch.lean ====
section
/-! DEFINITION. One arm per command of the opcode map (R65). -/

namespace Sys2Proof.Machine

def exec (i : Instr) (s : State) : Host.Outcome State Fault Refusal :=
  match i with
  | .nop => Sys2Proof.Machine.execNop s
  | .mix left right => Sys2Proof.Machine.execMix left right s
  | .read32 addr len off => Sys2Proof.Machine.execRead32 addr len off s
  | .read64 addr len off => Sys2Proof.Machine.execRead64 addr len off s
  | .tail addr len => Sys2Proof.Machine.execTail addr len s
  | .hash64 addr len seed => Sys2Proof.Machine.execHash64 addr len seed s
  | .hash64d addr len seed => Sys2Proof.Machine.execHash64d addr len seed s
  | .hash32 addr len seed => Sys2Proof.Machine.execHash32 addr len seed s
  | .random seed => Sys2Proof.Machine.execRandom seed s
  | .xcreate seed => Sys2Proof.Machine.execXcreate seed s
  | .xnext => Sys2Proof.Machine.execXnext s
  | .xinto => Sys2Proof.Machine.execXinto s
  | .screate seed => Sys2Proof.Machine.execScreate seed s
  | .snext => Sys2Proof.Machine.execSnext s
  | .sinto => Sys2Proof.Machine.execSinto s
  | .setsec idx value => Sys2Proof.Machine.execSetsec idx value s
  | .getsec idx => Sys2Proof.Machine.execGetsec idx s

end Sys2Proof.Machine
end

