-- ==== Sys2Proof/WellFormed.lean ====
section
/-! DEFINITION. Which instructions are well-formed: those that some legal header carries (R66). -/

namespace Sys2Proof

/-- A secret index is legal when it is at most 4 (R24, R66). -/
def legalIndex (idx : BitVec 3) : Bool := idx.toNat ≤ 4

/-- Every operand value is legal (R64); the one thing a packet can say that names nothing is an `IDX` of 5 to 7
(R24, R67). -/
def Instr.wellFormed : Instr → Bool
  | .nop => true
  | .mix _ _ => true
  | .read32 _ _ _ => true
  | .read64 _ _ _ => true
  | .tail _ _ => true
  | .hash64 _ _ _ => true
  | .hash64d _ _ _ => true
  | .hash32 _ _ _ => true
  | .random _ => true
  | .xcreate _ => true
  | .xnext => true
  | .xinto => true
  | .screate _ => true
  | .snext => true
  | .sinto => true
  | .setsec idx _ => legalIndex idx
  | .getsec idx => legalIndex idx

end Sys2Proof
end

