-- ==== Sys2Proof/Decode.lean ====
section
/-! DEFINITION. From the words on a request port to commands, and back: the header's fields (R61), framing (R62),
the decode procedure (R66), then the encoder written from the match column of the opcode map (R65). -/

namespace Sys2Proof

/-! ## Header fields (R61) -/

/-- `OPC`, bits 7:0. -/
def headerOpc (h : Half) : BitVec 8 := h.extractLsb' 0 8

/-- `IDX`, bits 10:8. -/
def headerIdx (h : Half) : BitVec 3 := h.extractLsb' 8 3

/-- The reserved bit 11. -/
def headerRsv11 (h : Half) : BitVec 1 := h.extractLsb' 11 1

/-- `NOPS`, bits 13:12. -/
def headerNops (h : Half) : BitVec 2 := h.extractLsb' 12 2

/-- The reserved bits 31:14. -/
def headerRsv (h : Half) : BitVec 18 := h.extractLsb' 14 18

/-! ## The opcode map (R63, R65) -/

/-- The number of operand doublewords of a format (R63). -/
def formatNops : Format → BitVec 2
  | .h0 => 0
  | .h0x => 0
  | .h1 => 1
  | .h1x => 1
  | .h2 => 2
  | .h3 => 3

/-- Whether a format uses the header's `IDX` (R63). -/
def formatIndexed : Format → Bool
  | .h0 => false
  | .h0x => true
  | .h1 => false
  | .h1x => true
  | .h2 => false
  | .h3 => false

/-- The column OPC of R65. -/
def opcodeByte : Opcode → BitVec 8
  | .nop => 0x00
  | .mix => 0x01
  | .read32 => 0x02
  | .read64 => 0x03
  | .tail => 0x04
  | .hash64 => 0x10
  | .hash64d => 0x11
  | .hash32 => 0x12
  | .random => 0x20
  | .xcreate => 0x30
  | .xnext => 0x31
  | .xinto => 0x32
  | .screate => 0x38
  | .snext => 0x39
  | .sinto => 0x3A
  | .setsec => 0x40
  | .getsec => 0x41

/-- The column format of R65. -/
def opcodeFormat : Opcode → Format
  | .nop => .h0
  | .mix => .h2
  | .read32 => .h3
  | .read64 => .h3
  | .tail => .h2
  | .hash64 => .h3
  | .hash64d => .h3
  | .hash32 => .h3
  | .random => .h1
  | .xcreate => .h1
  | .xnext => .h0
  | .xinto => .h0
  | .screate => .h1
  | .snext => .h0
  | .sinto => .h0
  | .setsec => .h1x
  | .getsec => .h0x

/-- The column match of R65. -/
def opcodeMatch : Opcode → Half
  | .nop => 0x00000000
  | .mix => 0x00002001
  | .read32 => 0x00003002
  | .read64 => 0x00003003
  | .tail => 0x00002004
  | .hash64 => 0x00003010
  | .hash64d => 0x00003011
  | .hash32 => 0x00003012
  | .random => 0x00001020
  | .xcreate => 0x00001030
  | .xnext => 0x00000031
  | .xinto => 0x00000032
  | .screate => 0x00001038
  | .snext => 0x00000039
  | .sinto => 0x0000003A
  | .setsec => 0x00001040
  | .getsec => 0x00000041

/-- The column mask of R65: SETSEC and GETSEC leave bits 10:8 free. -/
def opcodeMask : Opcode → Half
  | .nop => 0xFFFFFFFF
  | .mix => 0xFFFFFFFF
  | .read32 => 0xFFFFFFFF
  | .read64 => 0xFFFFFFFF
  | .tail => 0xFFFFFFFF
  | .hash64 => 0xFFFFFFFF
  | .hash64d => 0xFFFFFFFF
  | .hash32 => 0xFFFFFFFF
  | .random => 0xFFFFFFFF
  | .xcreate => 0xFFFFFFFF
  | .xnext => 0xFFFFFFFF
  | .xinto => 0xFFFFFFFF
  | .screate => 0xFFFFFFFF
  | .snext => 0xFFFFFFFF
  | .sinto => 0xFFFFFFFF
  | .setsec => 0xFFFFF8FF
  | .getsec => 0xFFFFF8FF

/-- The rows of R65 in the table's order. -/
def opcodeRows : List Opcode :=
  [.nop, .mix, .read32, .read64, .tail, .hash64, .hash64d, .hash32, .random,
   .xcreate, .xnext, .xinto, .screate, .snext, .sinto, .setsec, .getsec]

/-- The row whose OPC is the given byte, if there is one (R66). -/
def opcodeOfByte (b : BitVec 8) : Option Opcode := opcodeRows.find? fun op => opcodeByte op == b

/-! ## Framing (R62) -/

/-- The header that a port word carries: a port word has 64 lines and a header is its low 32 (R60, log entry 7). -/
def beatHeader (w : Word) : Half := w.setWidth 32

/-- Cut one packet off the words a port has been given.  The header's `NOPS` alone says how many words follow it,
whether or not the header is legal; no packet is there until all of them are (R62). -/
def frame : List Word → Option (Packet × List Word)
  | [] => none
  | b :: rest =>
    let n := (headerNops (beatHeader b)).toNat
    if rest.length < n then none
    else some (⟨beatHeader b, rest.take n⟩, rest.drop n)

/-! ## Decode (R66) -/

/-- The decode procedure of R66, test by test in its order. -/
def decodeHeader (h : Half) : Except Illegal (Opcode × BitVec 3) :=
  if headerRsv h ≠ 0 ∨ headerRsv11 h ≠ 0 then .error .reservedBits
  else
    match opcodeOfByte (headerOpc h) with
    | none => .error .reservedOpcode
    | some op =>
      if headerNops h ≠ formatNops (opcodeFormat op) then .error .operandCount
      else if formatIndexed (opcodeFormat op) then
        if legalIndex (headerIdx h) then .ok (op, headerIdx h) else .error .secretIndex
      else if headerIdx h ≠ 0 then .error .idxOnNonIndexed
      else .ok (op, headerIdx h)

/-- Formats without operands. -/
def noOperand (i : Instr) : List Word → Option Instr
  | [] => some i
  | _ :: _ => none

/-- Formats with one operand `op0`. -/
def oneOperand (f : Word → Instr) : List Word → Option Instr
  | [a] => some (f a)
  | _ => none

/-- Formats with two operands `op0`, `op1`. -/
def twoOperands (f : Word → Word → Instr) : List Word → Option Instr
  | [a, b] => some (f a b)
  | _ => none

/-- Formats with three operands `op0`, `op1`, `op2`. -/
def threeOperands (f : Word → Word → Word → Instr) : List Word → Option Instr
  | [a, b, c] => some (f a b c)
  | _ => none

/-- Operand assembly is the identity: each operand is used as given (R64). -/
def assembleInstr (op : Opcode) (idx : BitVec 3) (ops : List Word) : Option Instr :=
  match op with
  | .nop => noOperand .nop ops
  | .mix => twoOperands .mix ops
  | .read32 => threeOperands .read32 ops
  | .read64 => threeOperands .read64 ops
  | .tail => twoOperands .tail ops
  | .hash64 => threeOperands .hash64 ops
  | .hash64d => threeOperands .hash64d ops
  | .hash32 => threeOperands .hash32 ops
  | .random => oneOperand .random ops
  | .xcreate => oneOperand .xcreate ops
  | .xnext => noOperand .xnext ops
  | .xinto => noOperand .xinto ops
  | .screate => oneOperand .screate ops
  | .snext => noOperand .snext ops
  | .sinto => noOperand .sinto ops
  | .setsec => oneOperand (.setsec idx) ops
  | .getsec => noOperand (.getsec idx) ops

/-- A packet's command, or why it is ILLEGAL.  A framed packet has `NOPS` operands, so `assembleInstr` finds the
operands its opcode needs; a packet with another number of operands is rejected as the count mismatch it is. -/
def decode (p : Packet) : Except Illegal Instr :=
  match decodeHeader p.header with
  | .error e => .error e
  | .ok (op, idx) =>
    match assembleInstr op idx p.operands with
    | some i => .ok i
    | none => .error .operandCount

/-! ## Encode (R64, R65, R69) -/

/-- The opcode of a command. -/
def instrOpcode : Instr → Opcode
  | .nop => .nop
  | .mix _ _ => .mix
  | .read32 _ _ _ => .read32
  | .read64 _ _ _ => .read64
  | .tail _ _ => .tail
  | .hash64 _ _ _ => .hash64
  | .hash64d _ _ _ => .hash64d
  | .hash32 _ _ _ => .hash32
  | .random _ => .random
  | .xcreate _ => .xcreate
  | .xnext => .xnext
  | .xinto => .xinto
  | .screate _ => .screate
  | .snext => .snext
  | .sinto => .sinto
  | .setsec _ _ => .setsec
  | .getsec _ => .getsec

/-- The `IDX` of a command: 0 where it has none (R61). -/
def instrIdx : Instr → BitVec 3
  | .nop => 0
  | .mix _ _ => 0
  | .read32 _ _ _ => 0
  | .read64 _ _ _ => 0
  | .tail _ _ => 0
  | .hash64 _ _ _ => 0
  | .hash64d _ _ _ => 0
  | .hash32 _ _ _ => 0
  | .random _ => 0
  | .xcreate _ => 0
  | .xnext => 0
  | .xinto => 0
  | .screate _ => 0
  | .snext => 0
  | .sinto => 0
  | .setsec idx _ => idx
  | .getsec idx => idx

/-- The operands of a command in the order of R64. -/
def instrOperands : Instr → List Word
  | .nop => []
  | .mix left right => [left, right]
  | .read32 addr len off => [addr, len, off]
  | .read64 addr len off => [addr, len, off]
  | .tail addr len => [addr, len]
  | .hash64 addr len seed => [addr, len, seed]
  | .hash64d addr len seed => [addr, len, seed]
  | .hash32 addr len seed => [addr, len, seed]
  | .random seed => [seed]
  | .xcreate seed => [seed]
  | .xnext => []
  | .xinto => []
  | .screate seed => [seed]
  | .snext => []
  | .sinto => []
  | .setsec _ value => [value]
  | .getsec _ => []

/-- The header of R65 with `IDX` inserted at bits 10:8 (R69). -/
def encodeHeader (op : Opcode) (idx : BitVec 3) : Half := opcodeMatch op ||| (idx.setWidth 32 <<< 8)

/-- The packet of a command (R69). -/
def encode (i : Instr) : Packet := ⟨encodeHeader (instrOpcode i) (instrIdx i), instrOperands i⟩

/-- The words a requester puts on a port for a packet: the header on the low 32 lines, then the operands (R60). -/
def packetBeats (p : Packet) : List Word := p.header.setWidth 64 :: p.operands

/-! ## Words numbered as the opcode table numbers them -/

/-- The port words of an instruction whose bits are `w`: the header is bits 31:0 and operand `k` is the 64 bits from
bit `32 + 64 k` on; bits from `nbits` up are 0. -/
def tableBeats (nbits w : Nat) : List Word :=
  let v := w % 2 ^ nbits
  [BitVec.ofNat 64 (v % 2 ^ 32), BitVec.ofNat 64 (v / 2 ^ 32), BitVec.ofNat 64 (v / 2 ^ 96),
   BitVec.ofNat 64 (v / 2 ^ 160)]

/-- The packet that a port frames from those words: four words hold the longest packet, so there is one. -/
def tablePacket (nbits w : Nat) : Packet :=
  match frame (tableBeats nbits w) with
  | some (p, _) => p
  | none => ⟨0, []⟩

/-- The instruction the decoder reads from bits numbered as the opcode table numbers them. -/
def decodeTableWord (nbits w : Nat) : Option Instr := (decode (tablePacket nbits w)).toOption

end Sys2Proof
end

