-- ==== Sys2Proof/Machine/Ports.lean ====
section
/-! DEFINITION. The request ports and the arbiter's choice (R30, R62, R192 to R194), and the moves of the world
outside WYCORE: requesters, other users of memory, reset. -/

namespace Sys2Proof.Machine

/-! ## Words at a port -/

/-- The words held at port `p`, oldest first. -/
def portWords (p : Nat) : List (Nat × Word) → List Word
  | [] => []
  | (q, w) :: rest => if q = p then w :: portWords p rest else portWords p rest

/-- Take the first `n` words of port `p` away. -/
def dropWords (p : Nat) : Nat → List (Nat × Word) → List (Nat × Word)
  | _, [] => []
  | 0, e :: rest => e :: rest
  | n + 1, (q, w) :: rest => if q = p then dropWords p n rest else (q, w) :: dropWords p (n + 1) rest

/-- Port `p` has a request in flight (R30). -/
def portBusy (p : Nat) (rs : List Request) : Bool := rs.any fun r => r.port == p

/-- Port `p` accepts a request when it has none in flight and holds all words of one (R62, R193);
from then on the request is sent (log entry 13). -/
def State.accept (s : State) (p : Nat) : State :=
  if portBusy p s.inFlight then s
  else
    match frame (portWords p s.held) with
    | none => s
    | some (pkt, _) =>
      { s with
        inFlight := s.inFlight ++ [⟨p, pkt, false, Config.arbiterWait s.draws⟩]
        held := dropWords p (1 + pkt.operands.length) s.held
        draws := s.draws + 1 }

/-! ## The arbiter -/

/-- The request the arbiter takes, and those it passes over: one that waits for the fewest others, the earliest
accepted among equals.  The waits are free values, so every order in which each request is taken after finitely many
others is allowed (R193, R194; log entry 6). -/
def takeNext : List Request → Option (Request × List Request)
  | [] => none
  | r :: rest =>
    match takeNext rest with
    | none => some (r, [])
    | some (m, others) => if m.waits < r.waits then some (m, r :: others) else some (r, rest)

/-- A request passed over waits for one fewer. -/
def passOver (r : Request) : Request := { r with waits := r.waits - 1 }

/-- The state in which a taken request executes: it has left its port, and the others have been passed over. -/
def State.grant (s : State) (r : Request) (others : List Request) : State :=
  { s with inFlight := others.map passOver, torn := r.torn }

/-- Send the response on port `p` (R192). -/
def State.deliver (s : State) (p : Nat) : State :=
  match s.answer with
  | none => { s with torn := false }
  | some a => { s with answer := none, torn := false, sent := s.sent ++ [⟨p, a⟩] }

/-- After a command: its response is sent, and its port is free for the next request (R193; log entry
21). -/
def State.finish (s : State) (p : Nat) : State := (s.deliver p).accept p

/-! ## The world outside -/

/-- A requester puts words on port `p`; while the port is busy it holds the requester (R193). -/
def sendTurn (p : Nat) (beats : List Word) (s : State) : Host.Outcome State Fault Refusal :=
  if p < s.cfg.numPorts then .next ({ s with held := s.held ++ beats.map (fun w => (p, w)) }.accept p)
  else .fault .noSuchPort

/-- A request whose read set holds the written address is torn from then on (R52(e), R204). -/
def tearBy (addr : Nat) (r : Request) : Request :=
  match decode r.packet with
  | .error _ => r
  | .ok i => if inReadSet i addr then { r with torn := true } else r

/-- What an address reads as changes, between two commands (R40, R52(d), R52(e); log entry 11). -/
def platformTurn (addr : Word) (cell : Option Byte) (s : State) : Host.Outcome State Fault Refusal :=
  .next { s with mem := memSet s.mem addr.toNat cell, inFlight := s.inFlight.map (tearBy addr.toNat) }

/-- Reset (R200, R201): every element of architectural state at its reset value, every port and the arbiter empty.
Memory and parameters are the platform's and stay (R27; log entry 12). -/
def resetTurn (s : State) : Host.Outcome State Fault Refusal :=
  match s.inFlight with
  | [] =>
    .next { s with
      secret := s.cfg.defaultSecret, xseed := 0, sseed := prngMod s.cfg
      inFlight := [], held := [], answer := none, torn := false }
  | _ :: _ => .refused .resetInFlight

end Sys2Proof.Machine
end

