-- ==== Sys2Proof/Machine/Arbiter.lean ====
section
/-! DEFINITION. The arbiter takes a request and WYCORE executes it (R11, R193). -/

namespace Sys2Proof.Machine

/-- `Execute` (R11): a request with an ILLEGAL header executes nothing and is answered so (R67, R182). -/
def execPacket (p : Packet) (s : State) : Host.Outcome State Fault Refusal :=
  match decode p with
  | .ok i => exec i s
  | .error _ => .next (s.raise .illegal)

/-- Execute a taken request to completion and send its response on its port (R193). -/
def execRequest (r : Request) (s : State) : Host.Outcome State Fault Refusal :=
  match execPacket r.packet s with
  | .next t => .next (t.finish r.port)
  | .fault f => .fault f
  | .refused why => .refused why

/-- The arbiter's turn; with no request in flight nothing happens. -/
def arbiterTurn (s : State) : Host.Outcome State Fault Refusal :=
  match takeNext s.inFlight with
  | none => .next s
  | some (r, others) => execRequest r (s.grant r others)

/-- One turn. -/
def takeTurn (t : Turn) (s : State) : Host.Outcome State Fault Refusal :=
  match t with
  | .arbiter => arbiterTurn s
  | .send p beats => sendTurn p beats s
  | .platform addr cell => platformTurn addr cell s
  | .reset => resetTurn s

end Sys2Proof.Machine
end

