-- ==== Sys2Proof/Machine/Step.lean ====
section
/-! DEFINITION. One step of the machine, and the placing of an instruction where the next step takes it. -/

namespace Sys2Proof.Machine

/-- The next turn of the agenda, or the arbiter's when the agenda is empty. -/
def step (s : State) : Host.Outcome State Fault Refusal :=
  match s.agenda with
  | [] => arbiterTurn s
  | t :: rest => takeTurn t { s with agenda := rest }

/-- `s` with one request in flight, on port 0, whose words are given in the opcode table's numbering: the next step
is the arbiter's and takes exactly that request (log entry 9). -/
def State.withFetchWord (s : State) (nbits w : Nat) : State :=
  { s with agenda := [], inFlight := [⟨0, tablePacket nbits w, false, 0⟩] }

end Sys2Proof.Machine
end

