-- ==== Sys2Proof/Machine/Assembler.lean ====
section
/-! DEFINITION. The assembler syntax (R69) and the pseudo-instructions (R70): from text to request packets
(log entry 19). -/

namespace Sys2Proof.Machine

/-- The requests a pseudo-instruction stands for, in the order they are sent (R70). -/
def expandPseudo : Pseudo → List Instr
  | .ldsecret v0 v1 v2 v3 v4 => [.setsec 0 v0, .setsec 1 v1, .setsec 2 v2, .setsec 3 v3, .setsec 4 v4]
  | .defsecret =>
    [.setsec 0 0xa0761d6478bd642f, .setsec 1 0xe7037ed1a0b428db, .setsec 2 0x8ebc6af09c88c6e3,
     .setsec 3 0x589965cc75374cc3, .setsec 4 0x1d8e4e27c47d124f]
  | .defaulthash addr len seed => [.hash64d addr len seed]

/-- The column mnemonic of R65. -/
def opcodeMnemonic : Opcode → String
  | .nop => "NOP"
  | .mix => "MIX"
  | .read32 => "READ32"
  | .read64 => "READ64"
  | .tail => "TAIL"
  | .hash64 => "HASH64"
  | .hash64d => "HASH64D"
  | .hash32 => "HASH32"
  | .random => "RANDOM"
  | .xcreate => "XCREATE"
  | .xnext => "XNEXT"
  | .xinto => "XINTO"
  | .screate => "SCREATE"
  | .snext => "SNEXT"
  | .sinto => "SINTO"
  | .setsec => "SETSEC"
  | .getsec => "GETSEC"

/-- The value of a digit in base 10 or 16. -/
def digitValue (base : Nat) (c : Char) : Option Nat :=
  let v :=
    if '0' ≤ c ∧ c ≤ '9' then c.toNat - '0'.toNat
    else if 'a' ≤ c ∧ c ≤ 'f' then c.toNat - 'a'.toNat + 10
    else if 'A' ≤ c ∧ c ≤ 'F' then c.toNat - 'A'.toNat + 10
    else base
  if v < base then some v else none

/-- Digits read on from the value so far. -/
def digitsFrom (base : Nat) : List Char → Nat → Option Nat
  | [], acc => some acc
  | c :: cs, acc =>
    match digitValue base c with
    | none => none
    | some v => digitsFrom base cs (acc * base + v)

/-- Decimal or `0x` hexadecimal, unsigned (R69). -/
def numberOf : List Char → Option Nat
  | [] => none
  | '0' :: 'x' :: [] => none
  | '0' :: 'x' :: ds => digitsFrom 16 ds 0
  | ds => digitsFrom 10 ds 0

/-- A number as a 64-bit operand; a larger number is no operand. -/
def wordOf (cs : List Char) : Option Word :=
  match numberOf cs with
  | some n => if n < 2 ^ 64 then some (BitVec.ofNat 64 n) else none
  | none => none

/-- The white space of a line. -/
def isBlank (c : Char) : Bool := c == ' ' || c == '\t' || c == '\r'

/-- A text without the blanks around it. -/
def trimBlanks (cs : List Char) : List Char := ((cs.dropWhile isBlank).reverse.dropWhile isBlank).reverse

/-- The parts of a text between separators. -/
def splitAtChar (sep : Char) : List Char → List (List Char)
  | [] => [[]]
  | c :: cs =>
    match splitAtChar sep cs with
    | [] => [[c]]
    | part :: parts => if c = sep then [] :: part :: parts else (c :: part) :: parts

/-- All operands of a line, or none if one of them is no number. -/
def wordsOf : List (List Char) → Option (List Word)
  | [] => some []
  | cs :: rest =>
    match wordOf (trimBlanks cs), wordsOf rest with
    | some w, some ws => some (w :: ws)
    | _, _ => none

/-- A request from its opcode and its written operands: SETSEC and GETSEC write `IDX` first, 0 to 4 (R69). -/
def requestOf (op : Opcode) (ws : List Word) : Option Instr :=
  if formatIndexed (opcodeFormat op) then
    match ws with
    | [] => none
    | idx :: rest => if idx.toNat ≤ 4 then assembleInstr op (idx.setWidth 3) rest else none
  else assembleInstr op 0 ws

/-- A pseudo-instruction from its name and its written operands (R70). -/
def pseudoOf (name : List Char) (ws : List Word) : Option Pseudo :=
  if name = "LDSECRET".toList then
    match ws with
    | [v0, v1, v2, v3, v4] => some (.ldsecret v0 v1 v2 v3 v4)
    | _ => none
  else if name = "DEFSECRET".toList then
    match ws with
    | [] => some .defsecret
    | _ => none
  else if name = "DEFAULTHASH".toList then
    match ws with
    | [addr, len, seed] => some (.defaulthash addr len seed)
    | _ => none
  else none

/-- The requests of one line: comment off, then a mnemonic and its operands; a line without one has none (R69). -/
def assembleLine (line : List Char) : Option (List Instr) :=
  let text := trimBlanks (line.takeWhile fun c => c ≠ ';')
  let name := text.takeWhile fun c => !isBlank c
  let args := trimBlanks (text.dropWhile fun c => !isBlank c)
  if name.isEmpty then some []
  else
    match wordsOf (if args.isEmpty then [] else splitAtChar ',' args) with
    | none => none
    | some ws =>
      match opcodeRows.find? fun op => (opcodeMnemonic op).toList == name with
      | some op => (requestOf op ws).map fun i => [i]
      | none => (pseudoOf name ws).map expandPseudo

/-- The requests of a list of lines, or none if one of them is no line of the syntax. -/
def assembleLines : List (List Char) → Option (List Instr)
  | [] => some []
  | line :: rest =>
    match assembleLine line, assembleLines rest with
    | some is, some more => some (is ++ more)
    | _, _ => none

/-- The packets an assembler emits for a text, in order (R69). -/
def assembleText (text : String) : Option (List Packet) :=
  (assembleLines (splitAtChar '\n' text.toList)).map fun is => is.map encode

end Sys2Proof.Machine
end

