-- ==== Sys2Proof/Safety.lean ====
section
/-! DEFINITION. What counts as a legal state between steps, and the runs that claims speak of. -/

namespace Sys2Proof.Machine

/-- A packet has the operand words its header announces (R60, R62). -/
abbrev packetFramed (p : Packet) : Prop := p.operands.length = (headerNops p.header).toNat

/-- A legal state between two steps. -/
structure State.Inv (s : State) : Prop where
  /-- The memory listing is canonical. -/
  memory : s.mem.wf = true
  /-- There is a request port (R192). -/
  ports : 1 ≤ s.cfg.numPorts
  /-- A port has at most one request in flight (R30, R193). -/
  onePerPort : (s.inFlight.map Request.port).Nodup
  /-- Requests are in flight on ports that exist (R192). -/
  requestPorts : ∀ r ∈ s.inFlight, r.port < s.cfg.numPorts
  /-- What a port accepted is a whole packet (R62). -/
  framed : ∀ r ∈ s.inFlight, packetFramed r.packet
  /-- Words are held at ports that exist (R192). -/
  heldPorts : ∀ e ∈ s.held, e.1 < s.cfg.numPorts
  /-- No port holds a whole request without having one in flight (R193). -/
  noneStalled : ∀ p, portBusy p s.inFlight = false → frame (portWords p s.held) = none
  /-- No response waits to be sent (R193). -/
  answered : s.answer = none
  /-- No command is executing (R193). -/
  idle : s.torn = false

/-- Commands executed one after the other, each on the state its predecessor left (R52). -/
def execAll : List Instr → State → Host.Outcome State Fault Refusal
  | [], s => .next s
  | i :: rest, s =>
    match exec i s with
    | .next t => execAll rest t
    | .fault f => .fault f
    | .refused why => .refused why

/-- The responses sent on port `p`, oldest first. -/
def sentOn (p : Nat) (s : State) : List Response :=
  (s.sent.filter fun d => d.port == p).map Delivery.response

/-- `s` with a response on its response lines, and with everything else as it was. -/
def answering (s : State) (status : Status) (v : Word) : State := { s with answer := some ⟨status, v⟩ }

/-- The bytes from address `lo` on read as `buf` (R41). -/
def bytesAt (m : Memory) (lo : Nat) (buf : List Byte) : Prop := ∀ i < buf.length, memRead m (lo + i) = buf[i]?

/-- The width of a buffer-reading command's result (R204); the other commands read nothing. -/
def resultWidth : Instr → Nat
  | .nop => 64
  | .mix _ _ => 64
  | .read32 _ _ _ => 32
  | .read64 _ _ _ => 64
  | .tail _ _ => 24
  | .hash64 _ _ _ => 64
  | .hash64d _ _ _ => 64
  | .hash32 _ _ _ => 32
  | .random _ => 64
  | .xcreate _ => 64
  | .xnext => 64
  | .xinto => 64
  | .screate _ => 64
  | .snext => 64
  | .sinto => 64
  | .setsec _ _ => 64
  | .getsec _ => 64

/-- The ports of the requests that the arbiter takes one after the other when no new request arrives; `n` is how many
it takes. -/
def takenPorts : Nat → List Request → List Nat
  | 0, _ => []
  | n + 1, rs =>
    match takeNext rs with
    | none => []
    | some (r, others) => r.port :: takenPorts n (others.map passOver)

end Sys2Proof.Machine
end

