-- ==== Sys2Proof/Certificates/Slice0/Obligations.lean ====
section
/-! DEFINITION. The statements about WYCORE, from the numbered rules of spec/.

Where a statement speaks of one command it is about `exec`, whose next state it gives whole: `answering s status v` is
`s` with that response and nothing else changed, so the statement is the command's frame as well.  The command's
premises on the state are `s.torn = false` (no one wrote to the read set, R204) and that no byte of the read set has
read side effects (R48); `TornBufferGivesAnyValue` and `SideEffectMemoryIsRefused` say what happens otherwise. -/

open Sys2Proof Sys2Proof.Machine

/-! ## Encoding -/

/-- R71: the worked encodings, as an assembler emits them; the two ILLEGAL headers, and the port's framing of the
first: its two operands go with it. -/
def Obligations.AssemblerWorkedExamples : Prop :=
  assembleText "NOP" = some [⟨0x00000000, []⟩] ∧
  assembleText "XNEXT" = some [⟨0x00000031, []⟩] ∧
  assembleText "GETSEC 3" = some [⟨0x00000341, []⟩] ∧
  assembleText "RANDOM 0x5" = some [⟨0x00001020, [0x5]⟩] ∧
  assembleText "SETSEC 2, 0x1" = some [⟨0x00001240, [0x1]⟩] ∧
  assembleText "MIX 0x2, 0x3" = some [⟨0x00002001, [0x2, 0x3]⟩] ∧
  assembleText "HASH32 0x2000, 4, 0" = some [⟨0x00003012, [0x2000, 4, 0]⟩] ∧
  (∃ e, decodeHeader 0x00002010 = .error e) ∧
  (∀ a b rest, frame (0x00002010 :: a :: b :: rest) = some (⟨0x00002010, [a, b]⟩, rest)) ∧
  (∃ e, decodeHeader 0x00000541 = .error e)

/-- R64, R65: the packet of every row of the opcode map, with any operands, is that row's command; an operand is used
as given, the first after the header as `op0`. -/
def Obligations.OpcodeMapDecodes : Prop :=
  ∀ a b c : Word,
    decode ⟨0x00000000, []⟩ = .ok .nop ∧
    decode ⟨0x00002001, [a, b]⟩ = .ok (.mix a b) ∧
    decode ⟨0x00003002, [a, b, c]⟩ = .ok (.read32 a b c) ∧
    decode ⟨0x00003003, [a, b, c]⟩ = .ok (.read64 a b c) ∧
    decode ⟨0x00002004, [a, b]⟩ = .ok (.tail a b) ∧
    decode ⟨0x00003010, [a, b, c]⟩ = .ok (.hash64 a b c) ∧
    decode ⟨0x00003011, [a, b, c]⟩ = .ok (.hash64d a b c) ∧
    decode ⟨0x00003012, [a, b, c]⟩ = .ok (.hash32 a b c) ∧
    decode ⟨0x00001020, [a]⟩ = .ok (.random a) ∧
    decode ⟨0x00001030, [a]⟩ = .ok (.xcreate a) ∧
    decode ⟨0x00000031, []⟩ = .ok .xnext ∧
    decode ⟨0x00000032, []⟩ = .ok .xinto ∧
    decode ⟨0x00001038, [a]⟩ = .ok (.screate a) ∧
    decode ⟨0x00000039, []⟩ = .ok .snext ∧
    decode ⟨0x0000003A, []⟩ = .ok .sinto ∧
    decode ⟨0x00001040, [a]⟩ = .ok (.setsec 0 a) ∧
    decode ⟨0x00001440, [a]⟩ = .ok (.setsec 4 a) ∧
    decode ⟨0x00000041, []⟩ = .ok (.getsec 0) ∧
    decode ⟨0x00000441, []⟩ = .ok (.getsec 4)

/-- A well-formed command, encoded and decoded, is itself: no operand bit is dropped. -/
def Obligations.DecodeOfEncode : Prop :=
  ∀ i : Instr, i.wellFormed = true → decode (encode i) = .ok i

/-- A packet that decodes is the encoding of the command it decodes to, and that command is well-formed: each packet
has one meaning and no meaning has two packets (R67: no encoding is an alias of another). -/
def Obligations.EncodeOfDecode : Prop :=
  ∀ (p : Packet) (i : Instr), decode p = .ok i → i.wellFormed = true ∧ encode i = p

/-- R66: the decode procedure outcome by outcome, and its agreement with the opcode map. -/
def Obligations.HeaderDecodesByProcedure : Prop :=
  ∀ h : Half,
    (h.toNat / 2 ^ 14 ≠ 0 ∨ h.toNat / 2 ^ 11 % 2 ≠ 0 → decodeHeader h = .error .reservedBits) ∧
    (h.toNat / 2 ^ 14 = 0 → h.toNat / 2 ^ 11 % 2 = 0 →
      ((∀ op, (opcodeByte op).toNat ≠ h.toNat % 2 ^ 8) → decodeHeader h = .error .reservedOpcode) ∧
      (∀ op, (opcodeByte op).toNat = h.toNat % 2 ^ 8 →
        (h.toNat / 2 ^ 12 % 4 ≠ (formatNops (opcodeFormat op)).toNat → decodeHeader h = .error .operandCount) ∧
        (h.toNat / 2 ^ 12 % 4 = (formatNops (opcodeFormat op)).toNat →
          (formatIndexed (opcodeFormat op) = true →
            (h.toNat / 2 ^ 8 % 8 > 4 → decodeHeader h = .error .secretIndex) ∧
            (h.toNat / 2 ^ 8 % 8 ≤ 4 → decodeHeader h = .ok (op, BitVec.ofNat 3 (h.toNat / 2 ^ 8)))) ∧
          (formatIndexed (opcodeFormat op) = false →
            (h.toNat / 2 ^ 8 % 8 ≠ 0 → decodeHeader h = .error .idxOnNonIndexed) ∧
            (h.toNat / 2 ^ 8 % 8 = 0 → decodeHeader h = .ok (op, 0)))))) ∧
    ((∃ x, decodeHeader h = .ok x) ↔
      (∃ op, h &&& opcodeMask op = opcodeMatch op ∧ (∀ op', h &&& opcodeMask op' = opcodeMatch op' → op' = op) ∧
        (op = .setsec ∨ op = .getsec → h.toNat / 2 ^ 8 % 8 ≤ 4)))

/-- R67, R182: all opcodes but the 17 are reserved; a request whose header is ILLEGAL for any of the reasons of R67
executes nothing, changes no state, reads no memory and is answered ILLEGAL with result 0. -/
def Obligations.IllegalRequestExecutesNothing : Prop :=
  ((List.range 256).filter fun n => (opcodeOfByte (BitVec.ofNat 8 n)).isNone).length = 239 ∧
  ∀ (p : Packet) (s : State),
    ((∀ op, opcodeByte op ≠ headerOpc p.header) ∨
      headerRsv p.header ≠ 0 ∨ headerRsv11 p.header ≠ 0 ∨
      (∃ op, opcodeByte op = headerOpc p.header ∧
        (headerNops p.header ≠ formatNops (opcodeFormat op) ∨
          (op ≠ .setsec ∧ op ≠ .getsec ∧ headerIdx p.header ≠ 0) ∨ (headerIdx p.header).toNat > 4))) →
    execPacket p s = .next (answering s .illegal 0)

/-- R62: a port takes the header and exactly `NOPS` words after it, legal or not, and waits for all of them; so a
stream of packets, each with the operands its header announces, never loses its framing.  That the header is the low
32 lines of a word of 64, and the upper 32 are ignored, is the model's choice (log entry 7, DESIGN CHOICE); R62 does not
say which lines carry it. -/
def Obligations.PortFramesByNopsAlone : Prop :=
  (∀ (b : Word) (rest : List Word), rest.length < b.toNat / 2 ^ 12 % 4 → frame (b :: rest) = none) ∧
  (∀ (b : Word) (ops rest : List Word), ops.length = b.toNat / 2 ^ 12 % 4 →
    frame (b :: (ops ++ rest)) = some (⟨b.setWidth 32, ops⟩, rest)) ∧
  (∀ (p : Packet) (rest : List Word), packetFramed p → frame (packetBeats p ++ rest) = some (p, rest))

/-! ## Primitives -/

/-- R83: the fold of the exact product, and the laws. -/
def Obligations.MixFoldsExactProduct : Prop :=
  (∀ a b : Word, (mix a b).toNat = (a.toNat * b.toNat % 2 ^ 64) ^^^ (a.toNat * b.toNat / 2 ^ 64)) ∧
  (∀ a b : Word, mix a b = mix b a) ∧ (∀ a : Word, mix a 0 = 0) ∧ (∀ a : Word, mix a 1 = a) ∧
  mix 0x100000000 0x100000000 = 1 ∧ mix 0xFFFFFFFFFFFFFFFF 0xFFFFFFFFFFFFFFFF = 0xFFFFFFFFFFFFFFFF

/-- R80, R81: the little-endian sums of bytes at any offset: byte `o` weighs 1, each next one 256 times as much as the
one before it.  (Beyond the buffer `byteAt` is 0 in the model; no command reads there, R106.) -/
def Obligations.ReadersSumLittleEndianBytes : Prop :=
  ∀ (buf : List Byte) (o : Nat),
    (rd64 buf o).toNat = (byteAt buf o).toNat + 256 * ((byteAt buf (o + 1)).toNat
      + 256 * ((byteAt buf (o + 2)).toNat + 256 * ((byteAt buf (o + 3)).toNat
      + 256 * ((byteAt buf (o + 4)).toNat + 256 * ((byteAt buf (o + 5)).toNat
      + 256 * ((byteAt buf (o + 6)).toNat + 256 * (byteAt buf (o + 7)).toNat)))))) ∧
    (rd32 buf o).toNat = (byteAt buf o).toNat + 256 * ((byteAt buf (o + 1)).toNat
      + 256 * ((byteAt buf (o + 2)).toNat + 256 * (byteAt buf (o + 3)).toNat))

/-- R43: a 4-byte read sees the low half of an 8-byte read at the same offset. -/
def Obligations.MixedWidthReadsAgree : Prop :=
  ∀ (buf : List Byte) (o : Nat), rd32 buf o = (rd64 buf o).setWidth 32

/-- R82: the tail reader's formula; its top byte is 0; its three cases. -/
def Obligations.TailReaderPlacesThreeBytes : Prop :=
  ∀ (buf : List Byte) (p k : Nat), 1 ≤ k → k ≤ 3 →
    (tail3 buf p k).toNat = 65536 * (byteAt buf p).toNat + 256 * (byteAt buf (p + k / 2)).toNat
      + (byteAt buf (p + k - 1)).toNat ∧
    (tail3 buf p k).toNat < 2 ^ 24 ∧
    (k = 1 → (tail3 buf p k).toNat = (byteAt buf p).toNat * 0x10101) ∧
    (k = 2 → (tail3 buf p k).toNat = 65536 * (byteAt buf p).toNat + 256 * (byteAt buf (p + 1)).toNat
      + (byteAt buf (p + 1)).toNat) ∧
    (k = 3 → (tail3 buf p k).toNat = 65536 * (byteAt buf p).toNat + 256 * (byteAt buf (p + 1)).toNat
      + (byteAt buf (p + 2)).toNat)

/-! ## MIX and the readers -/

/-- R87: MIX in every state: its packet and its response; the commuted operands, and an operand of 0 or 1. -/
def Obligations.MixCommand : Prop :=
  ∀ (left right : Word) (s : State),
    encode (.mix left right) = ⟨0x00002001, [left, right]⟩ ∧
    exec (.mix left right) s = .next (answering s .ok (mix left right)) ∧
    exec (.mix right left) s = exec (.mix left right) s ∧
    exec (.mix left 0) s = .next (answering s .ok 0) ∧
    exec (.mix left 1) s = .next (answering s .ok left) ∧
    exec (.mix 0xdeadbeef 0xcafebabe) s = .next (answering s .ok 0xb092ab7b88cf5b62)

/-- R84: READ32 in all its cases. -/
def Obligations.Read32Command : Prop :=
  ∀ (addr len off : Word) (s : State),
    encode (.read32 addr len off) = ⟨0x00003002, [addr, len, off]⟩ ∧
    (addr.toNat + len.toNat > 2 ^ 64 → exec (.read32 addr len off) s = .next (answering s .range 0)) ∧
    (addr.toNat + len.toNat ≤ 2 ^ 64 → off.toNat + 4 > len.toNat →
      exec (.read32 addr len off) s = .next (answering s .bounds 0)) ∧
    (addr.toNat + len.toNat ≤ 2 ^ 64 → off.toNat + 4 ≤ len.toNat →
      touchesSideEffect s.cfg (addr.toNat + off.toNat) 4 = false →
      ((∃ i < 4, memRead s.mem (addr.toNat + off.toNat + i) = none) →
        exec (.read32 addr len off) s = .next (answering s .bus 0)) ∧
      (∀ b0 b1 b2 b3 : Byte, bytesAt s.mem (addr.toNat + off.toNat) [b0, b1, b2, b3] → s.torn = false →
        exec (.read32 addr len off) s = .next (answering s .ok
          (BitVec.ofNat 64 (b0.toNat + 256 * (b1.toNat + 256 * (b2.toNat + 256 * b3.toNat)))))))

/-- R85: READ64 in all its cases. -/
def Obligations.Read64Command : Prop :=
  ∀ (addr len off : Word) (s : State),
    encode (.read64 addr len off) = ⟨0x00003003, [addr, len, off]⟩ ∧
    (addr.toNat + len.toNat > 2 ^ 64 → exec (.read64 addr len off) s = .next (answering s .range 0)) ∧
    (addr.toNat + len.toNat ≤ 2 ^ 64 → off.toNat + 8 > len.toNat →
      exec (.read64 addr len off) s = .next (answering s .bounds 0)) ∧
    (addr.toNat + len.toNat ≤ 2 ^ 64 → off.toNat + 8 ≤ len.toNat →
      touchesSideEffect s.cfg (addr.toNat + off.toNat) 8 = false →
      ((∃ i < 8, memRead s.mem (addr.toNat + off.toNat + i) = none) →
        exec (.read64 addr len off) s = .next (answering s .bus 0)) ∧
      (∀ b0 b1 b2 b3 b4 b5 b6 b7 : Byte,
        bytesAt s.mem (addr.toNat + off.toNat) [b0, b1, b2, b3, b4, b5, b6, b7] → s.torn = false →
        exec (.read64 addr len off) s = .next (answering s .ok
          (BitVec.ofNat 64 (b0.toNat + 256 * (b1.toNat + 256 * (b2.toNat + 256 * (b3.toNat + 256 * (b4.toNat
            + 256 * (b5.toNat + 256 * (b6.toNat + 256 * b7.toNat)))))))))))

/-- R86: TAIL in all its cases. -/
def Obligations.TailCommand : Prop :=
  ∀ (addr len : Word) (s : State),
    encode (.tail addr len) = ⟨0x00002004, [addr, len]⟩ ∧
    (addr.toNat + len.toNat > 2 ^ 64 → exec (.tail addr len) s = .next (answering s .range 0)) ∧
    (addr.toNat + len.toNat ≤ 2 ^ 64 → len.toNat < 1 ∨ len.toNat > 3 →
      exec (.tail addr len) s = .next (answering s .bounds 0)) ∧
    (addr.toNat + len.toNat ≤ 2 ^ 64 → 1 ≤ len.toNat → len.toNat ≤ 3 →
      touchesSideEffect s.cfg addr.toNat len.toNat = false →
      ((∃ i < len.toNat, memRead s.mem (addr.toNat + i) = none) →
        exec (.tail addr len) s = .next (answering s .bus 0)) ∧
      (∀ first middle last : Byte, memRead s.mem addr.toNat = some first →
        memRead s.mem (addr.toNat + len.toNat / 2) = some middle →
        memRead s.mem (addr.toNat + len.toNat - 1) = some last → s.torn = false →
        exec (.tail addr len) s = .next (answering s .ok
          (BitVec.ofNat 64 (65536 * first.toNat + 256 * middle.toNat + last.toNat)))))

/-! ## The 64-bit pipeline -/

namespace Sys2Proof.Transcript

/-- Phase 1 of R100 as the text has it: from `(p, rem, seed, seed_extra)` the loop ends at `(p', rem', seed')`. -/
inductive BlockLoop (buf : List Byte) (sec : SecretBank) : Nat → Nat → Word → Word → Nat → Nat → Word → Prop where
  | done (p rem : Nat) (seed seedExtra : Word) : ¬ rem > 64 → BlockLoop buf sec p rem seed seedExtra p rem seed
  | block (p rem : Nat) (seed seedExtra : Word) (p' rem' : Nat) (seed' : Word) : rem > 64 →
    BlockLoop buf sec (p + 64) (rem - 64)
      (mix (rd64 buf (p + 0) ^^^ sec.w1) (rd64 buf (p + 8) ^^^ seed)
        ^^^ mix (rd64 buf (p + 16) ^^^ sec.w2) (rd64 buf (p + 24) ^^^ seed))
      (mix (rd64 buf (p + 32) ^^^ sec.w3) (rd64 buf (p + 40) ^^^ seedExtra)
        ^^^ mix (rd64 buf (p + 48) ^^^ sec.w4) (rd64 buf (p + 56) ^^^ seedExtra)) p' rem' seed' →
    BlockLoop buf sec p rem seed seedExtra p' rem' seed'

/-- Phase 2 of R100: from `(p, rem, seed)` the loop ends at `(p', rem', seed')`. -/
inductive StepLoop (buf : List Byte) (sec : SecretBank) : Nat → Nat → Word → Nat → Nat → Word → Prop where
  | done (p rem : Nat) (seed : Word) : ¬ rem > 16 → StepLoop buf sec p rem seed p rem seed
  | step (p rem : Nat) (seed : Word) (p' rem' : Nat) (seed' : Word) : rem > 16 →
    StepLoop buf sec (p + 16) (rem - 16) (mix (rd64 buf p ^^^ sec.w1) (rd64 buf (p + 8) ^^^ seed)) p' rem' seed' →
    StepLoop buf sec p rem seed p' rem' seed'

/-- The loop of R121: from `(p, rem, seed, see1)` it ends at `(p', rem', seed', see1')`. -/
inductive WordLoop (cfg : Config) (buf : List Byte) : Nat → Nat → Half → Half → Nat → Nat → Half → Half → Prop where
  | done (p rem : Nat) (seed see1 : Half) : ¬ rem > 8 → WordLoop cfg buf p rem seed see1 p rem seed see1
  | step (p rem : Nat) (seed see1 : Half) (p' rem' : Nat) (seed' see1' : Half) : rem > 8 →
    WordLoop cfg buf (p + 8) (rem - 8) (mix32 cfg (seed ^^^ rd32 buf p) (see1 ^^^ rd32 buf (p + 4))).1
      (mix32 cfg (seed ^^^ rd32 buf p) (see1 ^^^ rd32 buf (p + 4))).2 p' rem' seed' see1' →
    WordLoop cfg buf p rem seed see1 p' rem' seed' see1'

end Sys2Proof.Transcript

/-- R100: the function `hash64` is the algorithm of the text, its loops written as the text has them. -/
def Obligations.Hash64IsTheAlgorithm : Prop :=
  ∀ (buf : List Byte) (len : Nat) (seed : Word) (sec : SecretBank),
    ∃ (p1 rem1 p r : Nat) (seed1 seed2 : Word),
      Transcript.BlockLoop buf sec 0 len seed seed p1 rem1 seed1 ∧
      Transcript.StepLoop buf sec p1 rem1 seed1 p r seed2 ∧
      hash64Value buf len seed sec = mix (sec.w1 ^^^ BitVec.ofNat 64 len)
        (if r > 8 then mix (rd64 buf p ^^^ sec.w0) (rd64 buf (p + r - 8) ^^^ seed2)
        else if r ≥ 4 then
          mix (BitVec.setWidth 64 (rd32 buf p) ^^^ sec.w0) (BitVec.setWidth 64 (rd32 buf (p + r - 4)) ^^^ seed2)
        else if r > 0 then mix (BitVec.setWidth 64 (tail3 buf p r) ^^^ sec.w0) seed2
        else mix sec.w0 seed2)

/-- R105: blocks, steps and the remainder are functions of the length alone. -/
def Obligations.Hash64PathFollowsLength : Prop :=
  ∀ (buf : List Byte) (sec : SecretBank) (len : Nat) (seed : Word),
    let blocks := if len > 64 then (len - 64 + 63) / 64 else 0
    let left := len - 64 * blocks
    let steps := if left > 16 then (left - 16 + 15) / 16 else 0
    let after1 := hash64Blocks buf sec len ⟨0, len, seed, seed⟩
    let after2 := hash64Steps buf sec after1.rem after1
    after1.p = 64 * blocks ∧ after1.rem = left ∧ (len > 64 → 1 ≤ left ∧ left ≤ 64) ∧
    after2.p = 64 * blocks + 16 * steps ∧ after2.rem = left - 16 * steps ∧
    (len > 16 → 1 ≤ after2.rem ∧ after2.rem ≤ 16) ∧ (len ≤ 16 → after2.rem = len ∧ after2.p = 0)

/-- R106: every read lies inside the buffer: what stands behind its last byte has no effect. -/
def Obligations.Hash64ReadsOnlyTheBuffer : Prop :=
  ∀ (buf beyond : List Byte) (seed : Word) (sec : SecretBank),
    hash64Value (buf ++ beyond) buf.length seed sec = hash64Value buf buf.length seed sec

/-- R102: bytes 32 to 63 of every block have no effect on the result, and are in the read set all the same. -/
def Obligations.SeedExtraIsDiscarded : Prop :=
  (∀ (buf buf' : List Byte) (len : Nat) (seed : Word) (sec : SecretBank),
    (∀ j, byteAt buf j = byteAt buf' j ∨ (len > 64 ∧ j < 64 * ((len - 64 + 63) / 64) ∧ j % 64 ≥ 32)) →
    hash64Value buf len seed sec = hash64Value buf' len seed sec) ∧
  (∀ (addr len seed : Word) (a : Nat), addr.toNat + len.toNat ≤ 2 ^ 64 →
    (inReadSet (.hash64 addr len seed) a = true ↔ addr.toNat ≤ a ∧ a < addr.toNat + len.toNat))

/-- R109: the seed-0 collapse of buffers of 0 to 3 bytes, and of every buffer that enters phase 3 with seed 0 and at
most 3 bytes. -/
def Obligations.ShortBufferWithSeedZeroHashesToZero : Prop :=
  (∀ (buf : List Byte) (len : Nat) (sec : SecretBank), len ≤ 3 → hash64Value buf len 0 sec = 0) ∧
  (∀ (buf : List Byte) (len : Nat) (seed : Word) (sec : SecretBank),
    let after1 := hash64Blocks buf sec len ⟨0, len, seed, seed⟩
    let after2 := hash64Steps buf sec after1.rem after1
    after2.seed = 0 → after2.rem ≤ 3 → hash64Value buf len seed sec = 0)

/-- R107: HASH64 in all its cases. -/
def Obligations.Hash64Command : Prop :=
  ∀ (addr len seed : Word) (s : State),
    encode (.hash64 addr len seed) = ⟨0x00003010, [addr, len, seed]⟩ ∧
    (addr.toNat + len.toNat > 2 ^ 64 → exec (.hash64 addr len seed) s = .next (answering s .range 0)) ∧
    (addr.toNat + len.toNat ≤ 2 ^ 64 → touchesSideEffect s.cfg addr.toNat len.toNat = false →
      ((∃ i < len.toNat, memRead s.mem (addr.toNat + i) = none) →
        exec (.hash64 addr len seed) s = .next (answering s .bus 0)) ∧
      (∀ buf : List Byte, buf.length = len.toNat → bytesAt s.mem addr.toNat buf → s.torn = false →
        exec (.hash64 addr len seed) s = .next (answering s .ok (hash64Value buf len.toNat seed s.secret)) ∧
        (seed = 0 → len.toNat ≤ 3 → exec (.hash64 addr len seed) s = .next (answering s .ok 0)))) ∧
    (len = 0 → s.torn = false → exec (.hash64 addr len seed) s
      = .next (answering s .ok (mix s.secret.w1 (mix s.secret.w0 seed))))

/-- R108: HASH64D in all its cases: the pipeline with `DEFAULT_SECRET`, whatever the bank holds.  The last clause is
the rule's example, and names the transcribed literals as its assumption. -/
def Obligations.Hash64dCommand : Prop :=
  ∀ (addr len seed : Word) (s : State),
    encode (.hash64d addr len seed) = ⟨0x00003011, [addr, len, seed]⟩ ∧
    (addr.toNat + len.toNat > 2 ^ 64 → exec (.hash64d addr len seed) s = .next (answering s .range 0)) ∧
    (addr.toNat + len.toNat ≤ 2 ^ 64 → touchesSideEffect s.cfg addr.toNat len.toNat = false →
      ((∃ i < len.toNat, memRead s.mem (addr.toNat + i) = none) →
        exec (.hash64d addr len seed) s = .next (answering s .bus 0)) ∧
      (∀ buf : List Byte, buf.length = len.toNat → bytesAt s.mem addr.toNat buf → s.torn = false →
        exec (.hash64d addr len seed) s
          = .next (answering s .ok (hash64Value buf len.toNat seed s.cfg.defaultSecret)))) ∧
    (len = 0 → s.torn = false → exec (.hash64d addr len seed) s
      = .next (answering s .ok (mix s.cfg.defaultSecret.w1 (mix s.cfg.defaultSecret.w0 seed)))) ∧
    (s.cfg.defaultSecret
        = ⟨0xa0761d6478bd642f, 0xe7037ed1a0b428db, 0x8ebc6af09c88c6e3, 0x589965cc75374cc3, 0x1d8e4e27c47d124f⟩ →
      s.torn = false → exec (.hash64d addr 0 1) s = .next (answering s .ok 0x1ff5c2923a788d2c))

/-- R24: with the bank at its reset value HASH64 is the default hash. -/
def Obligations.Hash64WithResetBankIsDefaultHash : Prop :=
  ∀ (addr len seed : Word) (s : State), s.secret = s.cfg.defaultSecret →
    exec (.hash64 addr len seed) s = exec (.hash64d addr len seed) s

/-! ## The 32-bit pipeline -/

/-- R120: the product modulo 2^64 of the two masked accumulators, cut in halves; exact where both constants fit in 32
bits. -/
def Obligations.Mix32CutsTheProduct : Prop :=
  ∀ (cfg : Config) (a b : Half),
    let x := a.toNat ^^^ cfg.hash32Mod1.toNat
    let y := b.toNat ^^^ cfg.hash32Mod2.toNat
    (mix32 cfg a b).1.toNat = x * y % 2 ^ 64 % 2 ^ 32 ∧
    (mix32 cfg a b).2.toNat = x * y % 2 ^ 64 / 2 ^ 32 ∧
    (cfg.hash32Mod1.toNat < 2 ^ 32 → cfg.hash32Mod2.toNat < 2 ^ 32 →
      (mix32 cfg a b).1.toNat + 2 ^ 32 * (mix32 cfg a b).2.toNat = x * y)

/-- R121, R122, R123: the function `hash32` is the algorithm of the text, its loop written as the text has it. -/
def Obligations.Hash32IsTheAlgorithm : Prop :=
  ∀ (cfg : Config) (buf : List Byte) (len : Nat) (seed0 : Half),
    ∃ (p rem : Nat) (seed see1 : Half),
      (let start := mix32 cfg (seed0 ^^^ BitVec.ofNat 32 (len / 2 ^ 32)) (BitVec.ofNat 32 len)
       Transcript.WordLoop cfg buf 0 len start.1 start.2 p rem seed see1) ∧
      (let tailed := if rem ≥ 4 then (seed ^^^ rd32 buf p, see1 ^^^ rd32 buf (p + rem - 4))
        else if rem > 0 then (seed ^^^ tail3 buf p rem, see1) else (seed, see1)
       let once := mix32 cfg tailed.1 tailed.2
       let twice := mix32 cfg once.1 once.2
       hash32Value cfg buf len seed0 = twice.1 ^^^ twice.2)

/-- The iterations of hash32 and its remainder by length (the table of R125 without its count of re-mixes). -/
def Obligations.Hash32PathFollowsLength : Prop :=
  ∀ (cfg : Config) (buf : List Byte) (len : Nat) (seed : Half),
    let iterations := if len > 8 then (len - 8 + 7) / 8 else 0
    let looped := hash32Loop cfg buf len (remix32 cfg (hash32Start len seed))
    looped.p = 8 * iterations ∧ looped.rem = len - 8 * iterations ∧
    (len > 8 → 1 ≤ looped.rem ∧ looped.rem ≤ 8) ∧ (len ≤ 8 → looped.rem = len)

/-- R124: HASH32 in all its cases. -/
def Obligations.Hash32Command : Prop :=
  ∀ (addr len seed : Word) (s : State),
    encode (.hash32 addr len seed) = ⟨0x00003012, [addr, len, seed]⟩ ∧
    (addr.toNat + len.toNat > 2 ^ 64 → exec (.hash32 addr len seed) s = .next (answering s .range 0)) ∧
    (addr.toNat + len.toNat ≤ 2 ^ 64 → touchesSideEffect s.cfg addr.toNat len.toNat = false →
      ((∃ i < len.toNat, memRead s.mem (addr.toNat + i) = none) →
        exec (.hash32 addr len seed) s = .next (answering s .bus 0)) ∧
      (∀ buf : List Byte, buf.length = len.toNat → bytesAt s.mem addr.toNat buf → s.torn = false →
        exec (.hash32 addr len seed) s = .next (answering s .ok
          (BitVec.setWidth 64 (hash32Value s.cfg buf len.toNat (BitVec.ofNat 32 seed.toNat)))))) ∧
    (∀ seed' : Word, seed'.toNat % 2 ^ 32 = seed.toNat % 2 ^ 32 →
      exec (.hash32 addr len seed') s = exec (.hash32 addr len seed) s)

/-! ## The PRNG -/

/-- R140, R143: RANDOM is the mix of its seed and the seed's partner, and touches no seed; 0 gives 0 for every
partner.  The last clause names the default partner of R141 as its assumption. -/
def Obligations.RandomCommand : Prop :=
  ∀ (seed : Word) (s : State),
    encode (.random seed) = ⟨0x00001020, [seed]⟩ ∧
    exec (.random seed) s = .next (answering s .ok (mix seed (partnerOf s.cfg.partner seed))) ∧
    exec (.random 0) s = .next (answering s .ok 0) ∧
    (s.cfg.partner = ⟨0xe7037ed1a0b428db, []⟩ →
      exec (.random 1) s = .next (answering s .ok 0xe7037ed1a0b428da) ∧
      exec (.random 0xFFFFFFFFFFFFFFFF) s = .next (answering s .ok 0xFFFFFFFFFFFFFFFF) ∧
      exec (.random 0xa0761d6478bd642f) s = .next (answering s .ok 0x111cb3a78f59a58e))

/-- R141: `RANDOM_PARTNER` is any total function of 64-bit values: the model's plain-data form leaves none out, and
its default is the exclusive or with one constant. -/
def Obligations.EveryPartnerFunctionIsAllowed : Prop :=
  (∀ f : Word → Word, ∃ partner : Partner, ∀ s, partnerOf partner s = f s) ∧
  (∀ s : Word, partnerOf State.reset.cfg.partner s = s ^^^ 0xe7037ed1a0b428db)

/-- R144, R145, R146: the exclusive channel.  The seed that XNEXT consumes is not the one it found, because
`PRNG_MOD` is not 0. -/
def Obligations.ExclusiveChannelCommands : Prop :=
  ∀ (seed : Word) (s : State),
    encode (.xcreate seed) = ⟨0x00001030, [seed]⟩ ∧ encode .xnext = ⟨0x00000031, []⟩ ∧
    encode .xinto = ⟨0x00000032, []⟩ ∧
    exec (.xcreate seed) s = .next (answering { s with xseed := seed } .ok 0) ∧
    (∀ v : Word, v.toNat = (s.xseed.toNat + (prngMod s.cfg).toNat) % 2 ^ 64 →
      exec .xnext s = .next (answering { s with xseed := v } .ok (mix v (partnerOf s.cfg.partner v))) ∧
      (prngMod s.cfg ≠ 0 → v ≠ s.xseed)) ∧
    exec .xinto s = .next (answering s .ok s.xseed)

/-- R147, R148, R149: the shared channel. -/
def Obligations.SharedChannelCommands : Prop :=
  ∀ (seed : Word) (s : State),
    encode (.screate seed) = ⟨0x00001038, [seed]⟩ ∧ encode .snext = ⟨0x00000039, []⟩ ∧
    encode .sinto = ⟨0x0000003A, []⟩ ∧
    (∀ v : Word, v.toNat = (seed.toNat + (prngMod s.cfg).toNat) % 2 ^ 64 →
      exec (.screate seed) s = .next (answering { s with sseed := v } .ok 0)) ∧
    (∀ v : Word, v.toNat = (s.sseed.toNat + (prngMod s.cfg).toNat) % 2 ^ 64 →
      exec .snext s
        = .next (answering { s with sseed := v } .ok (mix s.sseed (partnerOf s.cfg.partner s.sseed)))) ∧
    exec .sinto s = .next (answering s .ok s.sseed)

/-- R150: the k-th XNEXT after `XCREATE a` and the k-th SNEXT after `SCREATE a` answer the same value, and the stored
seeds differ by one increment; after reset both channels stand as created with seed 0. -/
def Obligations.ChannelsProduceTheSameStream : Prop :=
  (∀ (a : Word) (k : Nat) (s : State), ∃ tx ts : State,
    execAll (.xcreate a :: List.replicate (k + 1) .xnext) s = .next tx ∧
    execAll (.screate a :: List.replicate (k + 1) .snext) s = .next ts ∧
    tx.answer = some ⟨.ok, random s.cfg (a + BitVec.ofNat 64 (k + 1) * prngMod s.cfg)⟩ ∧
    ts.answer = tx.answer ∧
    tx.xseed = a + BitVec.ofNat 64 (k + 1) * prngMod s.cfg ∧
    ts.sseed = tx.xseed + prngMod s.cfg) ∧
  exec (.xcreate 0) State.reset = .next (answering State.reset .ok 0) ∧
  exec (.screate 0) State.reset = .next (answering State.reset .ok 0)

/-- R151: `PRNG_MOD` is odd, so each 64-bit value is taken exactly once in 2^64 steps; n XNEXTs or n SNEXTs leave
the stored seed n increments on. -/
def Obligations.SeedSequenceHasFullPeriod : Prop :=
  (prngMod State.reset.cfg).toNat % 2 = 1 ∧
  (∀ (n : Nat) (s : State), ∃ t u : State, execAll (List.replicate n .snext) s = .next t ∧
    t.sseed = s.sseed + BitVec.ofNat 64 n * prngMod s.cfg ∧ execAll (List.replicate n .xnext) s = .next u ∧
    u.xseed = s.xseed + BitVec.ofNat 64 n * prngMod s.cfg) ∧
  (∀ (cfg : Config) (a v : Word), (prngMod cfg).toNat % 2 = 1 →
    ∃ k, k < 2 ^ 64 ∧ a + BitVec.ofNat 64 k * prngMod cfg = v ∧
      ∀ k', k' < 2 ^ 64 → a + BitVec.ofNat 64 k' * prngMod cfg = v → k' = k)

/-- R152: the first two XNEXTs after `XCREATE 0`: their values with the default constants, and under every partner that
does not map the two seeds to results of 0, both differ from `random(0)`. -/
def Obligations.FirstNextsDifferFromRandomOfZero : Prop :=
  ∀ s : State, ∃ t1 t2 t3 : State, ∃ v1 v2 : Word,
    exec (.xcreate 0) s = .next t1 ∧ exec .xnext t1 = .next t2 ∧ exec .xnext t2 = .next t3 ∧
    t2.answer = some ⟨.ok, v1⟩ ∧ t3.answer = some ⟨.ok, v2⟩ ∧ exec (.random 0) s = .next (answering s .ok 0) ∧
    (prngMod s.cfg = 0xa0761d6478bd642f → s.cfg.partner = ⟨0xe7037ed1a0b428db, []⟩ →
      v1 = 0x111cb3a78f59a58e ∧ v2 = 0xceabd938ff4e856d) ∧
    (random s.cfg (prngMod s.cfg) ≠ 0 → random s.cfg (prngMod s.cfg + prngMod s.cfg) ≠ 0 → v1 ≠ 0 ∧ v2 ≠ 0)

/-- R54: among any commands of any ports, in whatever order, every SNEXT advances SSEED once and nothing but SCREATE
and SNEXT moves it, so the seeds consumed are the successive ones, with no duplicate and no omission. -/
def Obligations.SharedSeedAdvancesOncePerSnext : Prop :=
  ∀ (cs : List Instr) (s t : State), (∀ a, Instr.screate a ∉ cs) → execAll cs s = .next t →
    t.sseed = s.sseed + BitVec.ofNat 64 (cs.count .snext) * prngMod s.cfg

/-! ## Control -/

/-- R170: NOP. -/
def Obligations.NopCommand : Prop :=
  (∀ s : State, exec .nop s = .next (answering s .ok 0)) ∧
  (∀ p : Packet, decode p = .ok .nop ↔ p = ⟨0, []⟩) ∧
  (∀ (h : Half) (ops : List Word), headerOpc h = 0x00 → h ≠ 0 → ∃ e, decode ⟨h, ops⟩ = .error e)

/-- R171, R172: SETSEC writes the selected word alone, GETSEC reads it; an index above 4 is ILLEGAL and writes
nothing. -/
def Obligations.SecretBankCommands : Prop :=
  ∀ (idx : BitVec 3) (v : Word) (s : State),
    encode (.setsec idx v) = ⟨0x00001040 ||| idx.setWidth 32 <<< 8, [v]⟩ ∧
    encode (.getsec idx) = ⟨0x00000041 ||| idx.setWidth 32 <<< 8, []⟩ ∧
    (idx.toNat ≤ 4 → ∃ bank : SecretBank,
      exec (.setsec idx v) s = .next (answering { s with secret := bank } .ok 0) ∧
      (bank.w0 = if idx = 0 then v else s.secret.w0) ∧ (bank.w1 = if idx = 1 then v else s.secret.w1) ∧
      (bank.w2 = if idx = 2 then v else s.secret.w2) ∧ (bank.w3 = if idx = 3 then v else s.secret.w3) ∧
      (bank.w4 = if idx = 4 then v else s.secret.w4)) ∧
    (idx.toNat > 4 → exec (.setsec idx v) s = .next (answering s .illegal 0)) ∧
    exec (.getsec 0) s = .next (answering s .ok s.secret.w0) ∧
    exec (.getsec 1) s = .next (answering s .ok s.secret.w1) ∧
    exec (.getsec 2) s = .next (answering s .ok s.secret.w2) ∧
    exec (.getsec 3) s = .next (answering s .ok s.secret.w3) ∧
    exec (.getsec 4) s = .next (answering s .ok s.secret.w4) ∧
    (idx.toNat > 4 → exec (.getsec idx) s = .next (answering s .illegal 0))

/-! ## What all commands share -/

/-- R20, R49: the frame of every command.  The secret bank changes only under SETSEC, XSEED only under XCREATE and
XNEXT, SSEED only under SCREATE and SNEXT; memory never, byte by byte, nor the parameters, the ports, the sent
responses and the agenda. -/
def Obligations.CommandFrame : Prop :=
  ∀ (i : Instr) (s t : State), exec i s = .next t →
    ((∀ idx v, i ≠ .setsec idx v) → t.secret = s.secret) ∧
    ((∀ a, i ≠ .xcreate a) → i ≠ .xnext → t.xseed = s.xseed) ∧
    ((∀ a, i ≠ .screate a) → i ≠ .snext → t.sseed = s.sseed) ∧
    (∀ a, memRead t.mem a = memRead s.mem a) ∧ t.mem = s.mem ∧ t.cfg = s.cfg ∧ t.inFlight = s.inFlight ∧
    t.held = s.held ∧ t.torn = s.torn ∧ t.sent = s.sent ∧ t.agenda = s.agenda

/-- R20, last sentence: NOP, MIX, READ32, READ64, TAIL, HASH64D, HASH32 and RANDOM neither write the architectural
state nor depend on it: with the same memory and parameters (and the same draw of free values) they answer the same
whatever the bank and the seeds hold. -/
def Obligations.PureCommandsIgnoreArchitecturalState : Prop :=
  ∀ (i : Instr) (s : State) (bank : SecretBank) (x y : Word),
    (i = .nop ∨ (∃ l r, i = .mix l r) ∨ (∃ a n o, i = .read32 a n o) ∨ (∃ a n o, i = .read64 a n o) ∨
      (∃ a n, i = .tail a n) ∨ (∃ a n d, i = .hash64d a n d) ∨ (∃ a n d, i = .hash32 a n d) ∨
      (∃ d, i = .random d)) →
    (∀ t, exec i s = .next t → t.secret = s.secret ∧ t.xseed = s.xseed ∧ t.sseed = s.sseed ∧
      exec i { s with secret := bank, xseed := x, sseed := y }
        = .next { t with secret := bank, xseed := x, sseed := y }) ∧
    (∀ why, exec i s = .refused why → exec i { s with secret := bank, xseed := x, sseed := y } = .refused why)

/-- R142: `PRNG_MOD` is the first word of the default secret, `0xa0761d6478bd642f` at its transcribed value, and no
step changes it; whatever the secret bank holds, the PRNG commands answer the same and leave the same seeds. -/
def Obligations.PrngModIsConstantAndIgnoresTheBank : Prop :=
  prngMod State.reset.cfg = 0xa0761d6478bd642f ∧ (∀ cfg : Config, prngMod cfg = cfg.defaultSecret.w0) ∧
  (∀ s t : State, step s = .next t → prngMod t.cfg = prngMod s.cfg) ∧
  ∀ (i : Instr) (s t : State) (bank : SecretBank),
    ((∃ d, i = .random d) ∨ (∃ d, i = .xcreate d) ∨ i = .xnext ∨ i = .xinto ∨ (∃ d, i = .screate d) ∨
      i = .snext ∨ i = .sinto) →
    exec i s = .next t → exec i { s with secret := bank } = .next { t with secret := bank }

/-- R180: every request completes with one response, unless R48 refuses it; one that fails has result 0 and changes
nothing but the response lines. -/
def Obligations.FailedRequestWritesNothing : Prop :=
  ∀ (p : Packet) (s : State),
    ((∃ t, execPacket p s = .next t) ∨ execPacket p s = .refused .sideEffectRead) ∧
    ∀ t, execPacket p s = .next t →
      ∃ r : Response, t.answer = some r ∧ (r.status ≠ .ok → t = answering s r.status 0)

/-- R181: the status codes, none above 4; which commands raise which status; the commands without a value answer 0. -/
def Obligations.StatusCodesAndTheirCommands : Prop :=
  statusCode .ok = 0x00 ∧ statusCode .illegal = 0x01 ∧ statusCode .range = 0x02 ∧ statusCode .bounds = 0x03 ∧
  statusCode .bus = 0x04 ∧ (∀ st, (statusCode st).toNat ≤ 4) ∧
  ∀ (i : Instr) (s t : State) (r : Response), exec i s = .next t → t.answer = some r →
    (r.status = .illegal → i.wellFormed = false) ∧
    (r.status = .range ∨ r.status = .bus → (∃ a n o, i = .read32 a n o) ∨ (∃ a n o, i = .read64 a n o) ∨
      (∃ a n, i = .tail a n) ∨ (∃ a n d, i = .hash64 a n d) ∨ (∃ a n d, i = .hash64d a n d) ∨
      (∃ a n d, i = .hash32 a n d)) ∧
    (r.status = .bounds → (∃ a n o, i = .read32 a n o) ∨ (∃ a n o, i = .read64 a n o) ∨ (∃ a n, i = .tail a n)) ∧
    (i = .nop ∨ (∃ a, i = .xcreate a) ∨ (∃ a, i = .screate a) ∨ (∃ x v, i = .setsec x v) → r.result = 0)

/-- R47: the read set of each command; a command depends on memory through its read set alone, and on every byte of
it: a `BusFault` at any of them fails the command. -/
def Obligations.ReadSetIsExact : Prop :=
  (∀ (i : Instr) (s : State) (m : Memory),
    (∀ a, inReadSet i a = true → memRead m a = memRead s.mem a) →
    (∀ t, exec i s = .next t → exec i { s with mem := m } = .next { t with mem := m }) ∧
    (∀ why, exec i s = .refused why → exec i { s with mem := m } = .refused why)) ∧
  (∀ (i : Instr) (s : State) (a : Nat), inReadSet i a = true → memRead s.mem a = none →
    touchesSideEffect s.cfg (readSet i).1 (readSet i).2 = false → exec i s = .next (answering s .bus 0)) ∧
  (∀ (addr len x : Word) (a : Nat), addr.toNat + len.toNat ≤ 2 ^ 64 →
    (inReadSet (.hash64 addr len x) a = true ↔ addr.toNat ≤ a ∧ a < addr.toNat + len.toNat) ∧
    (inReadSet (.hash64d addr len x) a = true ↔ addr.toNat ≤ a ∧ a < addr.toNat + len.toNat) ∧
    (inReadSet (.hash32 addr len x) a = true ↔ addr.toNat ≤ a ∧ a < addr.toNat + len.toNat) ∧
    (x.toNat + 4 ≤ len.toNat → (inReadSet (.read32 addr len x) a = true ↔
      addr.toNat + x.toNat ≤ a ∧ a < addr.toNat + x.toNat + 4)) ∧
    (x.toNat + 8 ≤ len.toNat → (inReadSet (.read64 addr len x) a = true ↔
      addr.toNat + x.toNat ≤ a ∧ a < addr.toNat + x.toNat + 8)) ∧
    (1 ≤ len.toNat → len.toNat ≤ 3 → (inReadSet (.tail addr len) a = true ↔
      addr.toNat ≤ a ∧ a < addr.toNat + len.toNat))) ∧
  ∀ (i : Instr) (a : Nat), (i = .nop ∨ (∃ l r, i = .mix l r) ∨ (∃ d, i = .random d) ∨ (∃ d, i = .xcreate d) ∨
    i = .xnext ∨ i = .xinto ∨ (∃ d, i = .screate d) ∨ i = .snext ∨ i = .sinto ∨ (∃ x v, i = .setsec x v) ∨
    ∃ x, i = .getsec x) → inReadSet i a = false

/-- R48: a command is refused exactly when a byte of its read set has read side effects; no command faults. -/
def Obligations.SideEffectMemoryIsRefused : Prop :=
  ∀ (i : Instr) (s : State),
    ((∃ a r, inReadSet i a = true ∧ r ∈ s.cfg.sideEffectRegions ∧ r.base ≤ a ∧ a < r.base + r.size) ↔
      exec i s = .refused .sideEffectRead) ∧
    ((∃ t, exec i s = .next t) ∨ exec i s = .refused .sideEffectRead)

/-- R204: a command whose read set was written while its request was in flight keeps its status; where that is OK its
result is the free value `Config.freeResult s.draws`, cut to the command's width, whatever that value is, and only the
count of draws moves beside, so that the next result is another free value.  That form of R204's undefined result is
the model's (log entry 5). -/
def Obligations.TornBufferGivesAnyValue : Prop :=
  ∀ (i : Instr) (s u : State), s.torn = true → exec i { s with torn := false } = .next u →
    ((readSet i).2 ≠ 0 → ∀ v, u.answer = some ⟨.ok, v⟩ →
      (cutTo (resultWidth i) (Config.freeResult s.draws)).toNat < 2 ^ resultWidth i ∧
      exec i s = .next (answering { s with draws := s.draws + 1 } .ok
        (cutTo (resultWidth i) (Config.freeResult s.draws)))) ∧
    (∀ st, st ≠ .ok → u.answer = some ⟨st, 0⟩ → exec i s = .next (answering s st 0))

/-! ## Steps, ports and the arbiter -/

/-- A step of the arbiter executes the command that the request it takes decodes to, in the state in which that
request has left its port, sends its response on that port and lets the port take its next request; a request placed
by `withFetchWord` is the one taken.  That `withFetchWord` stands for a requester's request (log entry 9) and that the
response leaves in the same step (log entry 21) are the model's. -/
def Obligations.StepRunsTheDecodedCommand : Prop :=
  (∀ (s : State) (rest : List Turn) (r : Request) (others : List Request) (i : Instr),
    s.agenda = [] ∧ rest = [] ∨ s.agenda = .arbiter :: rest →
    takeNext s.inFlight = some (r, others) → decode r.packet = .ok i →
    (∀ t, exec i { s with agenda := rest, inFlight := others.map passOver, torn := r.torn } = .next t →
      step s = .next (t.finish r.port)) ∧
    (∀ why, exec i { s with agenda := rest, inFlight := others.map passOver, torn := r.torn } = .refused why →
      step s = .refused why)) ∧
  (∀ (s : State) (nbits w : Nat) (i : Instr), decodeTableWord nbits w = some i →
    (∀ t, exec i { s with agenda := [], inFlight := [], torn := false } = .next t →
      step (s.withFetchWord nbits w) = .next (t.finish 0)) ∧
    (∀ why, exec i { s with agenda := [], inFlight := [], torn := false } = .refused why →
      step (s.withFetchWord nbits w) = .refused why))

/-- R182, R193: the arbiter answers an ILLEGAL request as it answers any other, without touching the architectural
state, and goes on. -/
def Obligations.StepAnswersAnIllegalRequest : Prop :=
  ∀ (s : State) (r : Request) (others : List Request) (e : Illegal), s.agenda = [] →
    takeNext s.inFlight = some (r, others) → decode r.packet = .error e →
    ∃ t, step s = .next t ∧ t.sent = s.sent ++ [⟨r.port, ⟨.illegal, 0⟩⟩] ∧ t.secret = s.secret ∧
      t.xseed = s.xseed ∧ t.sseed = s.sseed ∧ t.mem = s.mem

/-- A legal state is legal after every step. -/
def Obligations.StepKeepsInvariant : Prop :=
  ∀ s t : State, s.Inv → step s = .next t → t.Inv

/-- The state after reset is legal. -/
def Obligations.ResetIsLegal : Prop := State.reset.Inv

/-- R27, R49 and the arbiter's order: in a step memory changes only where the platform writes it, parameters never,
and the sent responses are kept and at most one is added.  The agenda of turns is the model's (log entry 9); that reset
keeps memory and sent responses is its reading (log entry 12). -/
def Obligations.StepFrame : Prop :=
  ∀ s t : State, s.mem.wf = true → step s = .next t →
    t.cfg = s.cfg ∧
    (∀ a, memRead t.mem a = memRead s.mem a ∨
      ∃ addr cell rest, s.agenda = .platform addr cell :: rest ∧ a = addr.toNat ∧ memRead t.mem a = cell) ∧
    (t.sent = s.sent ∨ ∃ d, t.sent = s.sent ++ [d]) ∧
    (s.agenda.tail = t.agenda)

/-- R193: a free port accepts the oldest whole packet it holds and nothing of what other ports hold; a busy port
accepts nothing.  That a request is sent, and so can be torn, only from this moment, whatever was written while its
words were held, is the model's reading of R193 and R204 (log entry 13, DEDUCED); which lines of a word are a header is
log entry 7's choice. -/
def Obligations.PortAcceptsItsOldestPacket : Prop :=
  ∀ (s : State) (p : Nat),
    (portBusy p s.inFlight = true → s.accept p = s) ∧
    (portBusy p s.inFlight = false → ∀ pkt rest, frame (portWords p s.held) = some (pkt, rest) →
      ∃ w, (s.accept p).inFlight = s.inFlight ++ [⟨p, pkt, false, w⟩] ∧ portWords p (s.accept p).held = rest ∧
        ∀ q, q ≠ p → portWords q (s.accept p).held = portWords q s.held)

/-- R60, R62, R192: words put on a free port that holds nothing else, when they are one whole packet, are that port's
request in flight, untorn; on a busy port they are held; on a port WYCORE lacks they are an impossible event.  The
lines a header stands on (log entry 7), that a request is sent when its port accepts it (log entry 13) and the fault
(log entry 14) are the model's. -/
def Obligations.SentPacketIsInFlight : Prop :=
  ∀ (s : State) (p : Nat) (pkt : Packet) (rest : List Turn), packetFramed pkt →
    s.agenda = .send p (packetBeats pkt) :: rest →
    (p < s.cfg.numPorts → portWords p s.held = [] →
      (portBusy p s.inFlight = false → ∃ t w, step s = .next t ∧ t.inFlight = s.inFlight ++ [⟨p, pkt, false, w⟩] ∧
        portWords p t.held = [] ∧ ∀ q, q ≠ p → portWords q t.held = portWords q s.held) ∧
      (portBusy p s.inFlight = true → ∃ t, step s = .next t ∧ t.inFlight = s.inFlight ∧
        portWords p t.held = packetBeats pkt)) ∧
    (¬ p < s.cfg.numPorts → step s = .fault .noSuchPort)

/-- R192: no command's result depends on its port: the same request on another port has the same response, and leaves
the same architectural state. -/
def Obligations.ResponseDoesNotDependOnPort : Prop :=
  ∀ (s : State) (p q : Nat) (pkt : Packet) (torn : Bool) (waits : Nat) (t : State), s.agenda = [] →
    step { s with inFlight := [⟨p, pkt, torn, waits⟩] } = .next t →
    ∃ (u : State) (a : Response), step { s with inFlight := [⟨q, pkt, torn, waits⟩] } = .next u ∧
      t.sent = s.sent ++ [⟨p, a⟩] ∧ u.sent = s.sent ++ [⟨q, a⟩] ∧
      u.secret = t.secret ∧ u.xseed = t.xseed ∧ u.sseed = t.sseed

/-- R193: the order in which the arbiter takes requests is open: every order of the waiting ports is the one it takes
under some choice of the waits. -/
def Obligations.EveryArbitrationOrderIsPossible : Prop :=
  ∀ (rs : List Request) (order : List Nat), (rs.map Request.port).Nodup → order.Perm (rs.map Request.port) →
    ∃ waits : Nat → Nat,
      takenPorts rs.length (rs.map fun r => { r with waits := waits r.port }) = order

/-- R194: the arbiter is fair, and every request is answered in finite time, whatever requests arrive at the ports
meanwhile from the words they hold.  R194 says no more than "finite": the bound of `waits + k + 1` steps for a request
with place `k` among those in flight is the model's own, from its free numbers of waits (log entry 6, DESIGN CHOICE). -/
def Obligations.EveryRequestIsAnsweredInFiniteTime : Prop :=
  ∀ (s t : State) (k n : Nat) (r : Request), s.agenda = [] → s.inFlight[k]? = some r → r.waits + k < n →
    Host.Core.run Sys2Proof.core n s = .next t →
    ∃ a : Response, (⟨r.port, a⟩ : Delivery) ∈ t.sent.drop s.sent.length

/-- R52(d), R52(e), R204: another agent's write is seen by every later command and by no other address, it keeps the
listing canonical, and it tears exactly the requests in flight whose read set holds the address.  That a write lands
between commands, and tears also where it writes the value that was there, is the model's (log entry 11). -/
def Obligations.PlatformWriteIsVisible : Prop :=
  ∀ (s : State) (addr : Word) (cell : Option Byte) (rest : List Turn), s.mem.wf = true →
    s.agenda = .platform addr cell :: rest →
    ∃ t, step s = .next t ∧ t.mem.wf = true ∧ memRead t.mem addr.toNat = cell ∧
      (∀ a, a ≠ addr.toNat → memRead t.mem a = memRead s.mem a) ∧
      t.secret = s.secret ∧ t.xseed = s.xseed ∧ t.sseed = s.sseed ∧ t.sent = s.sent ∧
      t.inFlight.length = s.inFlight.length ∧
      ∀ (k : Nat) (r : Request), s.inFlight[k]? = some r → ∃ b : Bool, t.inFlight[k]? = some { r with torn := b } ∧
        (b = true ↔ r.torn = true ∨ ∃ i, decode r.packet = .ok i ∧ inReadSet i addr.toNat = true)

/-! ## Reset -/

/-- R200: the reset values, in the state after reset and after a reset that is asserted while the block is idle; the
constants are unaffected.  That reset drops the words held at the ports (`t.held = []`) and leaves memory, which is the
platform's (`t.mem = s.mem`), is the model's reading (log entry 12, DEDUCED). -/
def Obligations.ResetSetsArchitecturalState : Prop :=
  (State.reset.secret
    = ⟨0xa0761d6478bd642f, 0xe7037ed1a0b428db, 0x8ebc6af09c88c6e3, 0x589965cc75374cc3, 0x1d8e4e27c47d124f⟩ ∧
    State.reset.cfg.defaultSecret = State.reset.secret ∧
    State.reset.xseed = 0 ∧ State.reset.sseed = 0xa0761d6478bd642f) ∧
  ∀ (s : State) (rest : List Turn), s.agenda = .reset :: rest → s.inFlight = [] →
    ∃ t, step s = .next t ∧ t.secret = s.cfg.defaultSecret ∧ t.xseed = 0 ∧ t.sseed = prngMod s.cfg ∧
      t.inFlight = [] ∧ t.held = [] ∧ t.mem = s.mem ∧ t.cfg = s.cfg ∧ t.agenda = rest

/-- R201, U9: reset empties every port and the arbiter; a run in which it is asserted while a request is in flight is
refused.  That an emptied port has lost the words it held (`t.held = []`) as well as its request, and that responses
already sent stay, is the model's reading (log entry 12, DEDUCED); the refusal is log entry 15's. -/
def Obligations.ResetWithRequestInFlightIsRefused : Prop :=
  ∀ (s : State) (rest : List Turn), s.agenda = .reset :: rest →
    (s.inFlight ≠ [] → step s = .refused .resetInFlight) ∧
    (s.inFlight = [] → ∃ t, step s = .next t ∧ t.inFlight = [] ∧ t.held = [] ∧ t.answer = none ∧ t.sent = s.sent)

/-- R203: reset behaves as if DEFSECRET, XCREATE 0 and SCREATE 0 had run. -/
def Obligations.ResetIsTheBootSequence : Prop :=
  (∃ t, execAll (expandPseudo .defsecret ++ [.xcreate 0, .screate 0]) State.reset = .next t ∧
    t.secret = State.reset.secret ∧ t.xseed = State.reset.xseed ∧ t.sseed = State.reset.sseed) ∧
  ∀ (s : State) (rest : List Turn), s.agenda = .reset :: rest → s.inFlight = [] →
    s.cfg.defaultSecret
      = ⟨0xa0761d6478bd642f, 0xe7037ed1a0b428db, 0x8ebc6af09c88c6e3, 0x589965cc75374cc3, 0x1d8e4e27c47d124f⟩ →
    ∃ t u, execAll (expandPseudo .defsecret ++ [.xcreate 0, .screate 0]) s = .next t ∧ step s = .next u ∧
      t.secret = u.secret ∧ t.xseed = u.xseed ∧ t.sseed = u.sseed

/-- R70, R206: LDSECRET loads a whole custom secret, whatever the bank held, and the next HASH64 hashes with it, over
every readable buffer; of the empty buffer, at any address, that is the mix of its words 0 and 1 with the seed. -/
def Obligations.LoadedSecretIsUsedAtOnce : Prop :=
  ∀ (v0 v1 v2 v3 v4 addr len seed : Word) (s : State), s.torn = false →
    (addr.toNat + len.toNat ≤ 2 ^ 64 → touchesSideEffect s.cfg addr.toNat len.toNat = false →
      ∀ buf : List Byte, buf.length = len.toNat → bytesAt s.mem addr.toNat buf →
        execAll (expandPseudo (.ldsecret v0 v1 v2 v3 v4) ++ [.hash64 addr len seed]) s
          = .next (answering { s with secret := ⟨v0, v1, v2, v3, v4⟩ } .ok
              (hash64Value buf len.toNat seed ⟨v0, v1, v2, v3, v4⟩))) ∧
    (len = 0 → execAll (expandPseudo (.ldsecret v0 v1 v2 v3 v4) ++ [.hash64 addr len seed]) s
      = .next (answering { s with secret := ⟨v0, v1, v2, v3, v4⟩ } .ok (mix v1 (mix v0 seed))))
end

