-- ==== Sys2Proof/Laws/Decode.lean ====
section
/-! SUPPORT. The opcode map: every row is found by its own byte, and the header that the encoder makes of it carries
the fields the decoder looks for. -/

namespace Sys2Proof

/-- No two rows share an opcode byte: each is found by its own. -/
theorem opcodeOfByte_opcodeByte (op : Opcode) : opcodeOfByte (opcodeByte op) = some op := by
  cases op <;> decide

/-- A byte that finds a row is that row's. -/
theorem opcodeByte_of_opcodeOfByte {b : BitVec 8} {op : Opcode} (h : opcodeOfByte b = some op) :
    opcodeByte op = b := by
  simpa using List.find?_some h

/-- The rows are listed in full. -/
theorem mem_opcodeRows (op : Opcode) : op ∈ opcodeRows := by cases op <;> decide

/-- A command without an index has its match column for a header. -/
@[simp] theorem encodeHeader_zero (op : Opcode) : encodeHeader op 0#3 = opcodeMatch op := by cases op <;> decide

/-- The match column carries the opcode byte. -/
theorem headerOpc_encodeHeader (op : Opcode) (idx : BitVec 3) : headerOpc (encodeHeader op idx) = opcodeByte op := by
  revert idx; cases op <;> decide

/-- The index goes into bits 10:8. -/
theorem headerIdx_encodeHeader (op : Opcode) (idx : BitVec 3) : headerIdx (encodeHeader op idx) = idx := by
  revert idx; cases op <;> decide

/-- The match column carries the format's operand count. -/
theorem headerNops_encodeHeader (op : Opcode) (idx : BitVec 3) :
    headerNops (encodeHeader op idx) = formatNops (opcodeFormat op) := by
  revert idx; cases op <;> decide

/-- The reserved bits of an encoded header are 0. -/
theorem headerRsv_encodeHeader (op : Opcode) (idx : BitVec 3) :
    headerRsv (encodeHeader op idx) = 0 ∧ headerRsv11 (encodeHeader op idx) = 0 := by
  revert idx; cases op <;> decide

/-- A header is its five fields. -/
theorem header_ext {h k : Half} (h1 : headerOpc h = headerOpc k) (h2 : headerIdx h = headerIdx k)
    (h3 : headerRsv11 h = headerRsv11 k) (h4 : headerNops h = headerNops k) (h5 : headerRsv h = headerRsv k) :
    h = k := by
  simp only [headerOpc, headerIdx, headerRsv11, headerNops, headerRsv, ← BitVec.toNat_inj,
    BitVec.extractLsb'_toNat, Nat.shiftRight_eq_div_pow] at h1 h2 h3 h4 h5
  apply BitVec.eq_of_toNat_eq
  have hh := h.isLt
  have hk := k.isLt
  omega

end Sys2Proof
end

