-- ==== Sys2Proof/Laws/State.lean ====
section
/-! SUPPORT. One lemma per field of `State` per update, each true by definition, so that no proof unfolds a record
update; then what the operations that choose between updates can do.

The `(rfl)` in parentheses makes simp rewrite with these lemmas instead of leaving the equality to the kernel, which
would otherwise compare a field with 64-bit arithmetic in it by evaluating the arithmetic. -/

namespace Sys2Proof.Machine

/-! ## `State.setSecret` -/

@[simp] theorem State.setSecret_secret (s : State) (b : SecretBank) : (s.setSecret b).secret = b := (rfl)
@[simp] theorem State.setSecret_xseed (s : State) (b : SecretBank) : (s.setSecret b).xseed = s.xseed := (rfl)
@[simp] theorem State.setSecret_sseed (s : State) (b : SecretBank) : (s.setSecret b).sseed = s.sseed := (rfl)
@[simp] theorem State.setSecret_mem (s : State) (b : SecretBank) : (s.setSecret b).mem = s.mem := (rfl)
@[simp] theorem State.setSecret_cfg (s : State) (b : SecretBank) : (s.setSecret b).cfg = s.cfg := (rfl)
@[simp] theorem State.setSecret_inFlight (s : State) (b : SecretBank) : (s.setSecret b).inFlight = s.inFlight := (rfl)
@[simp] theorem State.setSecret_held (s : State) (b : SecretBank) : (s.setSecret b).held = s.held := (rfl)
@[simp] theorem State.setSecret_answer (s : State) (b : SecretBank) : (s.setSecret b).answer = s.answer := (rfl)
@[simp] theorem State.setSecret_torn (s : State) (b : SecretBank) : (s.setSecret b).torn = s.torn := (rfl)
@[simp] theorem State.setSecret_sent (s : State) (b : SecretBank) : (s.setSecret b).sent = s.sent := (rfl)
@[simp] theorem State.setSecret_agenda (s : State) (b : SecretBank) : (s.setSecret b).agenda = s.agenda := (rfl)
@[simp] theorem State.setSecret_draws (s : State) (b : SecretBank) : (s.setSecret b).draws = s.draws := (rfl)

/-! ## `State.setXseed` -/

@[simp] theorem State.setXseed_secret (s : State) (v : Word) : (s.setXseed v).secret = s.secret := (rfl)
@[simp] theorem State.setXseed_xseed (s : State) (v : Word) : (s.setXseed v).xseed = v := (rfl)
@[simp] theorem State.setXseed_sseed (s : State) (v : Word) : (s.setXseed v).sseed = s.sseed := (rfl)
@[simp] theorem State.setXseed_mem (s : State) (v : Word) : (s.setXseed v).mem = s.mem := (rfl)
@[simp] theorem State.setXseed_cfg (s : State) (v : Word) : (s.setXseed v).cfg = s.cfg := (rfl)
@[simp] theorem State.setXseed_inFlight (s : State) (v : Word) : (s.setXseed v).inFlight = s.inFlight := (rfl)
@[simp] theorem State.setXseed_held (s : State) (v : Word) : (s.setXseed v).held = s.held := (rfl)
@[simp] theorem State.setXseed_answer (s : State) (v : Word) : (s.setXseed v).answer = s.answer := (rfl)
@[simp] theorem State.setXseed_torn (s : State) (v : Word) : (s.setXseed v).torn = s.torn := (rfl)
@[simp] theorem State.setXseed_sent (s : State) (v : Word) : (s.setXseed v).sent = s.sent := (rfl)
@[simp] theorem State.setXseed_agenda (s : State) (v : Word) : (s.setXseed v).agenda = s.agenda := (rfl)
@[simp] theorem State.setXseed_draws (s : State) (v : Word) : (s.setXseed v).draws = s.draws := (rfl)

/-! ## `State.setSseed` -/

@[simp] theorem State.setSseed_secret (s : State) (v : Word) : (s.setSseed v).secret = s.secret := (rfl)
@[simp] theorem State.setSseed_xseed (s : State) (v : Word) : (s.setSseed v).xseed = s.xseed := (rfl)
@[simp] theorem State.setSseed_sseed (s : State) (v : Word) : (s.setSseed v).sseed = v := (rfl)
@[simp] theorem State.setSseed_mem (s : State) (v : Word) : (s.setSseed v).mem = s.mem := (rfl)
@[simp] theorem State.setSseed_cfg (s : State) (v : Word) : (s.setSseed v).cfg = s.cfg := (rfl)
@[simp] theorem State.setSseed_inFlight (s : State) (v : Word) : (s.setSseed v).inFlight = s.inFlight := (rfl)
@[simp] theorem State.setSseed_held (s : State) (v : Word) : (s.setSseed v).held = s.held := (rfl)
@[simp] theorem State.setSseed_answer (s : State) (v : Word) : (s.setSseed v).answer = s.answer := (rfl)
@[simp] theorem State.setSseed_torn (s : State) (v : Word) : (s.setSseed v).torn = s.torn := (rfl)
@[simp] theorem State.setSseed_sent (s : State) (v : Word) : (s.setSseed v).sent = s.sent := (rfl)
@[simp] theorem State.setSseed_agenda (s : State) (v : Word) : (s.setSseed v).agenda = s.agenda := (rfl)
@[simp] theorem State.setSseed_draws (s : State) (v : Word) : (s.setSseed v).draws = s.draws := (rfl)

/-! ## `State.drew` -/

@[simp] theorem State.drew_secret (s : State) : (s.drew).secret = s.secret := (rfl)
@[simp] theorem State.drew_xseed (s : State) : (s.drew).xseed = s.xseed := (rfl)
@[simp] theorem State.drew_sseed (s : State) : (s.drew).sseed = s.sseed := (rfl)
@[simp] theorem State.drew_mem (s : State) : (s.drew).mem = s.mem := (rfl)
@[simp] theorem State.drew_cfg (s : State) : (s.drew).cfg = s.cfg := (rfl)
@[simp] theorem State.drew_inFlight (s : State) : (s.drew).inFlight = s.inFlight := (rfl)
@[simp] theorem State.drew_held (s : State) : (s.drew).held = s.held := (rfl)
@[simp] theorem State.drew_answer (s : State) : (s.drew).answer = s.answer := (rfl)
@[simp] theorem State.drew_torn (s : State) : (s.drew).torn = s.torn := (rfl)
@[simp] theorem State.drew_sent (s : State) : (s.drew).sent = s.sent := (rfl)
@[simp] theorem State.drew_agenda (s : State) : (s.drew).agenda = s.agenda := (rfl)
@[simp] theorem State.drew_draws (s : State) : (s.drew).draws = s.draws + 1 := (rfl)

/-! ## `State.respond` -/

@[simp] theorem State.respond_secret (s : State) (v : Word) : (s.respond v).secret = s.secret := (rfl)
@[simp] theorem State.respond_xseed (s : State) (v : Word) : (s.respond v).xseed = s.xseed := (rfl)
@[simp] theorem State.respond_sseed (s : State) (v : Word) : (s.respond v).sseed = s.sseed := (rfl)
@[simp] theorem State.respond_mem (s : State) (v : Word) : (s.respond v).mem = s.mem := (rfl)
@[simp] theorem State.respond_cfg (s : State) (v : Word) : (s.respond v).cfg = s.cfg := (rfl)
@[simp] theorem State.respond_inFlight (s : State) (v : Word) : (s.respond v).inFlight = s.inFlight := (rfl)
@[simp] theorem State.respond_held (s : State) (v : Word) : (s.respond v).held = s.held := (rfl)
@[simp] theorem State.respond_answer (s : State) (v : Word) : (s.respond v).answer = some ⟨.ok, v⟩ := (rfl)
@[simp] theorem State.respond_torn (s : State) (v : Word) : (s.respond v).torn = s.torn := (rfl)
@[simp] theorem State.respond_sent (s : State) (v : Word) : (s.respond v).sent = s.sent := (rfl)
@[simp] theorem State.respond_agenda (s : State) (v : Word) : (s.respond v).agenda = s.agenda := (rfl)
@[simp] theorem State.respond_draws (s : State) (v : Word) : (s.respond v).draws = s.draws := (rfl)

/-! ## `State.raise` -/

@[simp] theorem State.raise_secret (s : State) (st : Status) : (s.raise st).secret = s.secret := (rfl)
@[simp] theorem State.raise_xseed (s : State) (st : Status) : (s.raise st).xseed = s.xseed := (rfl)
@[simp] theorem State.raise_sseed (s : State) (st : Status) : (s.raise st).sseed = s.sseed := (rfl)
@[simp] theorem State.raise_mem (s : State) (st : Status) : (s.raise st).mem = s.mem := (rfl)
@[simp] theorem State.raise_cfg (s : State) (st : Status) : (s.raise st).cfg = s.cfg := (rfl)
@[simp] theorem State.raise_inFlight (s : State) (st : Status) : (s.raise st).inFlight = s.inFlight := (rfl)
@[simp] theorem State.raise_held (s : State) (st : Status) : (s.raise st).held = s.held := (rfl)
@[simp] theorem State.raise_answer (s : State) (st : Status) : (s.raise st).answer = some ⟨st, 0⟩ := (rfl)
@[simp] theorem State.raise_torn (s : State) (st : Status) : (s.raise st).torn = s.torn := (rfl)
@[simp] theorem State.raise_sent (s : State) (st : Status) : (s.raise st).sent = s.sent := (rfl)
@[simp] theorem State.raise_agenda (s : State) (st : Status) : (s.raise st).agenda = s.agenda := (rfl)
@[simp] theorem State.raise_draws (s : State) (st : Status) : (s.raise st).draws = s.draws := (rfl)

/-! ## `State.grant` -/

@[simp] theorem State.grant_secret (s : State) (r : Request) (others : List Request) : (s.grant r others).secret = s.secret := (rfl)
@[simp] theorem State.grant_xseed (s : State) (r : Request) (others : List Request) : (s.grant r others).xseed = s.xseed := (rfl)
@[simp] theorem State.grant_sseed (s : State) (r : Request) (others : List Request) : (s.grant r others).sseed = s.sseed := (rfl)
@[simp] theorem State.grant_mem (s : State) (r : Request) (others : List Request) : (s.grant r others).mem = s.mem := (rfl)
@[simp] theorem State.grant_cfg (s : State) (r : Request) (others : List Request) : (s.grant r others).cfg = s.cfg := (rfl)
@[simp] theorem State.grant_inFlight (s : State) (r : Request) (others : List Request) : (s.grant r others).inFlight = others.map passOver := (rfl)
@[simp] theorem State.grant_held (s : State) (r : Request) (others : List Request) : (s.grant r others).held = s.held := (rfl)
@[simp] theorem State.grant_answer (s : State) (r : Request) (others : List Request) : (s.grant r others).answer = s.answer := (rfl)
@[simp] theorem State.grant_torn (s : State) (r : Request) (others : List Request) : (s.grant r others).torn = r.torn := (rfl)
@[simp] theorem State.grant_sent (s : State) (r : Request) (others : List Request) : (s.grant r others).sent = s.sent := (rfl)
@[simp] theorem State.grant_agenda (s : State) (r : Request) (others : List Request) : (s.grant r others).agenda = s.agenda := (rfl)
@[simp] theorem State.grant_draws (s : State) (r : Request) (others : List Request) : (s.grant r others).draws = s.draws := (rfl)

/-! ## Answers -/

/-- A success is `answering`. -/
theorem State.respond_eq (s : State) (v : Word) : s.respond v = answering s .ok v := rfl

/-- An error is `answering` with result 0. -/
theorem State.raise_eq (s : State) (st : Status) : s.raise st = answering s st 0 := rfl

/-- Without a write to the read set the answer is the computed value. -/
theorem State.respondRead_of_quiet {s : State} (h : s.torn = false) (width : Nat) (v : Word) :
    s.respondRead width v = answering s .ok v := by
  simp [State.respondRead, h, State.respond_eq]

/-- After a write to the read set the answer is a drawn value. -/
theorem State.respondRead_of_torn {s : State} (h : s.torn = true) (width : Nat) (v : Word) :
    s.respondRead width v
      = answering { s with draws := s.draws + 1 } .ok (cutTo width (Config.freeResult s.draws)) := by
  simp [State.respondRead, h, State.respond, State.drew, answering]

/-- Either way the status is OK and nothing but the response lines and the count of draws has changed. -/
theorem State.respondRead_cases (s : State) (width : Nat) (v : Word) :
    ∃ (w : Word) (d : Nat), s.respondRead width v = answering { s with draws := d } .ok w := by
  rcases Bool.eq_false_or_eq_true s.torn with h | h
  · exact ⟨_, _, s.respondRead_of_torn h width v⟩
  · exact ⟨v, s.draws, s.respondRead_of_quiet h width v⟩

/-- A cut value fits its width. -/
theorem cutTo_lt (width : Nat) (v : Word) : (cutTo width v).toNat < 2 ^ width := by
  simp only [cutTo, BitVec.toNat_setWidth]
  exact lt_of_le_of_lt (Nat.mod_le _ _) (Nat.mod_lt _ (Nat.two_pow_pos _))

/-! ## `answering` -/

@[simp] theorem answering_secret (s : State) (st : Status) (v : Word) : (answering s st v).secret = s.secret := (rfl)
@[simp] theorem answering_xseed (s : State) (st : Status) (v : Word) : (answering s st v).xseed = s.xseed := (rfl)
@[simp] theorem answering_sseed (s : State) (st : Status) (v : Word) : (answering s st v).sseed = s.sseed := (rfl)
@[simp] theorem answering_mem (s : State) (st : Status) (v : Word) : (answering s st v).mem = s.mem := (rfl)
@[simp] theorem answering_cfg (s : State) (st : Status) (v : Word) : (answering s st v).cfg = s.cfg := (rfl)
@[simp] theorem answering_inFlight (s : State) (st : Status) (v : Word) : (answering s st v).inFlight = s.inFlight := (rfl)
@[simp] theorem answering_held (s : State) (st : Status) (v : Word) : (answering s st v).held = s.held := (rfl)
@[simp] theorem answering_answer (s : State) (st : Status) (v : Word) : (answering s st v).answer = some ⟨st, v⟩ := (rfl)
@[simp] theorem answering_torn (s : State) (st : Status) (v : Word) : (answering s st v).torn = s.torn := (rfl)
@[simp] theorem answering_sent (s : State) (st : Status) (v : Word) : (answering s st v).sent = s.sent := (rfl)
@[simp] theorem answering_agenda (s : State) (st : Status) (v : Word) : (answering s st v).agenda = s.agenda := (rfl)
@[simp] theorem answering_draws (s : State) (st : Status) (v : Word) : (answering s st v).draws = s.draws := (rfl)

end Sys2Proof.Machine
end

