-- ==== Sys2Proof/Laws/Memory.lean ====
section
/-! SUPPORT. Memory: a read after a write, the canonical form, and what reading a run of bytes can answer. -/

namespace Sys2Proof.Machine

@[simp] theorem memRead_nil (a : Nat) : memRead [] a = none := rfl

/-- Nothing is listed below the bound of a canonical listing. -/
theorem memRead_of_lt {m : Memory} : ∀ {low a : Nat}, memoryFrom low m = true → a < low → memRead m a = none := by
  induction m with
  | nil => intros; rfl
  | cons e rest ih =>
    intro low a h ha
    simp only [memoryFrom, Bool.and_eq_true, decide_eq_true_eq] at h
    have hne : a ≠ e.1 := by omega
    simp only [memRead, if_neg hne]
    exact ih h.2 (by omega)

/-- A canonical listing is canonical from any lower bound on. -/
theorem memoryFrom_mono {m : Memory} {low low' : Nat} (h : memoryFrom low m = true) (hl : low' ≤ low) :
    memoryFrom low' m = true := by
  cases m with
  | nil => rfl
  | cons e rest =>
    simp only [memoryFrom, Bool.and_eq_true, decide_eq_true_eq] at h ⊢
    exact ⟨⟨by omega, h.1.2⟩, h.2⟩

/-- A write keeps the canonical form. -/
theorem memoryFrom_memSet {m : Memory} (a : Nat) (cell : Option Byte) (ha : a < 2 ^ 64) :
    ∀ {low : Nat}, memoryFrom low m = true → low ≤ a → memoryFrom low (memSet m a cell) = true := by
  induction m with
  | nil =>
    intro low _ hl
    cases cell <;> simp_all [memSet, memPut, memoryFrom]
  | cons e rest ih =>
    intro low h hl
    simp only [memoryFrom, Bool.and_eq_true, decide_eq_true_eq] at h
    obtain ⟨⟨hlow, hk⟩, hrest⟩ := h
    rcases Nat.lt_trichotomy a e.1 with hlt | heq | hgt
    · cases cell with
      | none => simp [memSet, memPut, memoryFrom, hlt, hlow, hrest]; omega
      | some b => simp [memSet, memPut, memoryFrom, hlt, hl, hrest, Nat.succ_le_of_lt hlt]; omega
    · cases cell with
      | none =>
        simp only [memSet, heq, lt_irrefl, if_false, if_true, memPut]
        exact memoryFrom_mono hrest (by omega)
      | some b => simp [memSet, memPut, memoryFrom, heq, hlow, hrest]; omega
    · simp only [memSet, if_neg (show ¬ a < e.1 by omega), if_neg (show ¬ a = e.1 by omega), memoryFrom,
        Bool.and_eq_true, decide_eq_true_eq]
      exact ⟨⟨hlow, hk⟩, ih hrest (by omega)⟩

/-- The one memory operation that writes keeps `Memory.wf`. -/
theorem memSet_wf {m : Memory} (h : m.wf = true) (a : Nat) (cell : Option Byte) (ha : a < 2 ^ 64) :
    Memory.wf (memSet m a cell) = true := memoryFrom_memSet a cell ha h (Nat.zero_le a)

/-- The memory after reset is canonical. -/
theorem reset_mem_wf : Memory.wf State.reset.mem = true := rfl

/-- A read at the written address gives what was written. -/
theorem memRead_memSet_same {m : Memory} (a : Nat) (cell : Option Byte) :
    ∀ {low : Nat}, memoryFrom low m = true → memRead (memSet m a cell) a = cell := by
  induction m with
  | nil => intro low _; cases cell <;> simp [memSet, memPut, memRead]
  | cons e rest ih =>
    intro low h
    simp only [memoryFrom, Bool.and_eq_true, decide_eq_true_eq] at h
    rcases Nat.lt_trichotomy a e.1 with hlt | heq | hgt
    · have hne : a ≠ e.1 := by omega
      cases cell with
      | none => simp [memSet, memPut, memRead, hlt, hne, memRead_of_lt h.2 (show a < e.1 + 1 by omega)]
      | some b => simp [memSet, memPut, memRead, hlt]
    · cases cell with
      | none => simp [memSet, memPut, heq, memRead_of_lt h.2 (Nat.lt_succ_self e.1)]
      | some b => simp [memSet, memPut, memRead, heq]
    · have hne : a ≠ e.1 := by omega
      simp only [memSet, if_neg (show ¬ a < e.1 by omega), if_neg hne, memRead]
      exact ih h.2

/-- A write leaves every other address alone. -/
theorem memRead_memSet_other (m : Memory) {a a' : Nat} (cell : Option Byte) (h : a' ≠ a) :
    memRead (memSet m a cell) a' = memRead m a' := by
  induction m with
  | nil => cases cell <;> simp [memSet, memPut, memRead, h]
  | cons e rest ih =>
    simp only [memSet]
    split
    · cases cell <;> simp [memPut, memRead, h]
    · split
      · rename_i heq
        have hne : a' ≠ e.1 := by omega
        cases cell <;> simp [memPut, memRead, h, hne]
      · simp only [memRead, ih]

/-- Reading a run of bytes, byte by byte. -/
theorem readBytes_eq_some {m : Memory} {n : Nat} : ∀ {a : Nat} {bs : List Byte},
    readBytes m a n = some bs ↔ bs.length = n ∧ bytesAt m a bs := by
  induction n with
  | zero =>
    intro a bs
    simp only [readBytes, Option.some.injEq, List.length_eq_zero_iff]
    exact ⟨fun h => ⟨h.symm, by simp [← h, bytesAt]⟩, fun h => h.1.symm⟩
  | succ n ih =>
    intro a bs
    constructor
    · intro h
      simp only [readBytes] at h
      split at h
      · cases h
      · rename_i b hb
        split at h
        · cases h
        · rename_i rest hrest
          cases h
          obtain ⟨hl, hat⟩ := ih.1 hrest
          refine ⟨by simp [hl], fun i hi => ?_⟩
          cases i with
          | zero => simpa using hb
          | succ i =>
            have := hat i (by simpa using hi)
            simpa [Nat.add_assoc, Nat.add_comm 1 i] using this
    · rintro ⟨hl, hat⟩
      cases bs with
      | nil => cases hl
      | cons b rest =>
        have h0 : memRead m a = some b := by simpa using hat 0 (by simp)
        have hrest : readBytes m (a + 1) n = some rest := by
          refine ih.2 ⟨by simpa using hl, fun i hi => ?_⟩
          have := hat (i + 1) (by simpa using hi)
          simpa [Nat.add_assoc, Nat.add_comm 1 i] using this
        simp [readBytes, h0, hrest]

/-- A run of bytes cannot be read exactly when one of them gives `BusFault`. -/
theorem readBytes_eq_none {m : Memory} {n : Nat} : ∀ {a : Nat},
    readBytes m a n = none ↔ ∃ i < n, memRead m (a + i) = none := by
  induction n with
  | zero => intro a; simp [readBytes]
  | succ n ih =>
    intro a
    cases h0 : memRead m a with
    | none => exact ⟨fun _ => ⟨0, by omega, by simpa using h0⟩, fun _ => by simp [readBytes, h0]⟩
    | some b =>
      have hih := @ih (a + 1)
      cases hr : readBytes m (a + 1) n with
      | none =>
        obtain ⟨i, hi, hin⟩ := hih.1 hr
        refine ⟨fun _ => ⟨i + 1, by omega, ?_⟩, fun _ => by simp [readBytes, h0, hr]⟩
        rwa [Nat.add_comm i 1, ← Nat.add_assoc]
      | some bs =>
        refine ⟨fun h => by simp [readBytes, h0, hr] at h, ?_⟩
        rintro ⟨i, hi, hin⟩
        exfalso
        cases i with
        | zero => simp [h0] at hin
        | succ i =>
          have : readBytes m (a + 1) n = none :=
            hih.2 ⟨i, by omega, by rwa [Nat.add_assoc, Nat.add_comm 1 i]⟩
          rw [hr] at this; cases this

/-- A run of bytes depends on memory at those addresses alone. -/
theorem readBytes_congr {m m' : Memory} {n : Nat} : ∀ {a : Nat},
    (∀ i < n, memRead m (a + i) = memRead m' (a + i)) → readBytes m a n = readBytes m' a n := by
  induction n with
  | zero => intros; rfl
  | succ n ih =>
    intro a h
    have h0 := h 0 (by omega)
    have hr : readBytes m (a + 1) n = readBytes m' (a + 1) n :=
      ih fun i hi => by
        have := h (i + 1) (by omega)
        rwa [Nat.add_comm i 1, ← Nat.add_assoc] at this
    simp only [Nat.add_zero] at h0
    simp only [readBytes, h0, hr]

/-- Nothing is read where there is no byte to read, and nothing of it has read side effects. -/
theorem regionTouched_zero (lo : Nat) (r : Region) : regionTouched lo 0 r = false := by
  simp only [regionTouched, decide_eq_false_iff_not]; omega

/-- A region is touched when an address is in both ranges. -/
theorem regionTouched_iff (lo n : Nat) (r : Region) :
    regionTouched lo n r = true ↔ ∃ a, lo ≤ a ∧ a < lo + n ∧ r.base ≤ a ∧ a < r.base + r.size := by
  simp only [regionTouched, decide_eq_true_eq]
  exact ⟨fun h => ⟨max lo r.base, by omega, by omega, by omega, by omega⟩, by rintro ⟨a, h⟩; omega⟩

end Sys2Proof.Machine
end

