-- ==== Sys2Proof/Laws/Exec.lean ====
section
/-! SUPPORT. What a command can do: the shared operations case by case, then `exec` once for all commands. -/

namespace Sys2Proof.Machine

/-! ## Reading memory -/

/-- A read set in memory with read side effects is refused. -/
theorem readWindow_refused {s : State} {lo n : Nat} (h : touchesSideEffect s.cfg lo n = true) (width : Nat)
    (f : List Byte → Word) : readWindow s lo n width f = .refused .sideEffectRead := by
  simp [readWindow, h]

/-- A read set with a `BusFault` is answered BUS. -/
theorem readWindow_bus {s : State} {lo n : Nat} (h : touchesSideEffect s.cfg lo n = false)
    (hb : ∃ i < n, memRead s.mem (lo + i) = none) (width : Nat) (f : List Byte → Word) :
    readWindow s lo n width f = .next (answering s .bus 0) := by
  simp [readWindow, h, readBytes_eq_none.2 hb, State.raise_eq]

/-- A readable read set is answered from its bytes. -/
theorem readWindow_ok {s : State} {lo n : Nat} {buf : List Byte} (h : touchesSideEffect s.cfg lo n = false)
    (hl : buf.length = n) (hb : bytesAt s.mem lo buf) (width : Nat) (f : List Byte → Word) :
    readWindow s lo n width f = .next (s.respondRead width (f buf)) := by
  simp [readWindow, h, readBytes_eq_some.2 ⟨hl, hb⟩]

/-- Nothing else happens: a refusal, or an answer that changes nothing beside the count of draws. -/
theorem readWindow_cases (s : State) (lo n width : Nat) (f : List Byte → Word) :
    readWindow s lo n width f = .refused .sideEffectRead ∨
    ∃ st v d, readWindow s lo n width f = .next (answering { s with draws := d } st v) := by
  unfold readWindow
  split
  · exact .inl rfl
  · split
    · exact .inr ⟨.bus, 0, s.draws, rfl⟩
    · rename_i buf _
      obtain ⟨w, d, h⟩ := s.respondRead_cases width (f buf)
      exact .inr ⟨.ok, w, d, by rw [h]⟩

/-! ## The secret bank -/

/-- `IDX` 0 to 4 names a word that reads as what was written to it. -/
theorem secretGet_secretSet {b b' : SecretBank} {idx : BitVec 3} {v : Word} (h : secretSet b idx v = some b') :
    secretGet b' idx = some v := by
  unfold secretSet at h
  unfold secretGet
  split at h <;> simp_all <;> subst h <;> rfl

/-- A legal index always names a word. -/
theorem secretSet_isSome {idx : BitVec 3} (h : idx.toNat ≤ 4) (b : SecretBank) (v : Word) :
    ∃ b', secretSet b idx v = some b' := by
  have h' : idx.toNat = 0 ∨ idx.toNat = 1 ∨ idx.toNat = 2 ∨ idx.toNat = 3 ∨ idx.toNat = 4 := by omega
  rcases h' with h' | h' | h' | h' | h' <;> simp [secretSet, h']

/-- An illegal index names none. -/
theorem secretSet_eq_none {idx : BitVec 3} (h : 4 < idx.toNat) (b : SecretBank) (v : Word) :
    secretSet b idx v = none := by
  unfold secretSet
  split <;> first | omega | rfl

/-- An illegal index names none. -/
theorem secretGet_eq_none {idx : BitVec 3} (h : 4 < idx.toNat) (b : SecretBank) : secretGet b idx = none := by
  unfold secretGet
  split <;> first | omega | rfl

/-! ## Commands -/

/-- The architectural effect of a command that succeeds: the one register it writes. -/
def archEffect (i : Instr) (s : State) : State :=
  match i with
  | .nop => s
  | .mix _ _ => s
  | .read32 _ _ _ => s
  | .read64 _ _ _ => s
  | .tail _ _ => s
  | .hash64 _ _ _ => s
  | .hash64d _ _ _ => s
  | .hash32 _ _ _ => s
  | .random _ => s
  | .xcreate seed => s.setXseed seed
  | .xnext => s.setXseed (s.xseed + prngMod s.cfg)
  | .xinto => s
  | .screate seed => s.setSseed (seed + prngMod s.cfg)
  | .snext => s.setSseed (s.sseed + prngMod s.cfg)
  | .sinto => s
  | .setsec idx v => (secretSet s.secret idx v).elim s s.setSecret
  | .getsec _ => s

/-- The three ways a command can end: refused for its read set; failed with nothing changed; or succeeded with its
architectural effect and, at most, a drawn value beside it. -/
inductive Ends (i : Instr) (s : State) (out : Host.Outcome State Fault Refusal) : Prop where
  | refused : out = .refused .sideEffectRead → Ends i s out
  | failed (st : Status) : st ≠ .ok → out = .next (answering s st 0) → Ends i s out
  | succeeded (t : State) (v : Word) (d : Nat) : archEffect i s = t →
    out = .next (answering { t with draws := d } .ok v) → Ends i s out

/-- A success. -/
theorem ends_respond {i : Instr} {s t : State} (h : archEffect i s = t) (v : Word) :
    Ends i s (.next (t.respond v)) := .succeeded t v t.draws h rfl

/-- A failure. -/
theorem ends_raise (i : Instr) (s : State) {st : Status} (h : st ≠ .ok) : Ends i s (.next (s.raise st)) :=
  .failed st h rfl

/-- A use of memory. -/
theorem ends_readWindow {i : Instr} {s : State} (h : archEffect i s = s) (lo n width : Nat) (f : List Byte → Word) :
    Ends i s (readWindow s lo n width f) := by
  unfold readWindow
  split
  · exact .refused rfl
  · split
    · exact ends_raise i s (by decide)
    · rename_i buf _
      obtain ⟨w, d, hw⟩ := s.respondRead_cases width (f buf)
      exact .succeeded s w d h (by rw [hw])

/-- A test that fails the command, then the rest of it. -/
theorem ends_ite {i : Instr} {s : State} {st : Status} (h : st ≠ .ok) (b : Bool)
    {out : Host.Outcome State Fault Refusal} (ho : Ends i s out) :
    Ends i s (if b = true then .next (s.raise st) else out) := by
  cases b
  · exact ho
  · exact ends_raise i s h

/-- How every command ends. -/
theorem exec_ends (i : Instr) (s : State) : Ends i s (exec i s) := by
  cases i with
  | nop => exact ends_respond (rfl) 0
  | mix l r => exact ends_respond (rfl) _
  | read32 a n o =>
    exact ends_ite (by decide) _ (ends_ite (by decide) _ (ends_readWindow (rfl) _ _ _ _))
  | read64 a n o =>
    exact ends_ite (by decide) _ (ends_ite (by decide) _ (ends_readWindow (rfl) _ _ _ _))
  | tail a n =>
    exact ends_ite (by decide) _ (ends_ite (by decide) _ (ends_readWindow (rfl) _ _ _ _))
  | hash64 a n d => exact ends_ite (by decide) _ (ends_readWindow (rfl) _ _ _ _)
  | hash64d a n d => exact ends_ite (by decide) _ (ends_readWindow (rfl) _ _ _ _)
  | hash32 a n d => exact ends_ite (by decide) _ (ends_readWindow (rfl) _ _ _ _)
  | random d => exact ends_respond (rfl) _
  | xcreate d => exact ends_respond (rfl) _
  | xnext => exact ends_respond (rfl) _
  | xinto => exact ends_respond (rfl) _
  | screate d => exact ends_respond (rfl) _
  | snext => exact ends_respond (rfl) _
  | sinto => exact ends_respond (rfl) _
  | setsec idx v =>
    simp only [exec, execSetsec]
    split
    · rename_i bank hb
      exact ends_respond (by simp only [archEffect, hb, Option.elim]) 0
    · exact ends_raise _ s (by decide)
  | getsec idx =>
    simp only [exec, execGetsec]
    split
    · exact ends_respond (rfl) _
    · exact ends_raise _ s (by decide)
/-- The effect changes architectural state alone. -/
theorem archEffect_cases (i : Instr) (s : State) :
    ∃ bank x y, archEffect i s = { s with secret := bank, xseed := x, sseed := y } := by
  cases i with
  | xcreate d => exact ⟨s.secret, d, s.sseed, (rfl)⟩
  | xnext => exact ⟨s.secret, s.xseed + prngMod s.cfg, s.sseed, (rfl)⟩
  | screate d => exact ⟨s.secret, s.xseed, d + prngMod s.cfg, (rfl)⟩
  | snext => exact ⟨s.secret, s.xseed, s.sseed + prngMod s.cfg, (rfl)⟩
  | setsec idx v =>
    simp only [archEffect]
    cases secretSet s.secret idx v with
    | none => exact ⟨s.secret, s.xseed, s.sseed, rfl⟩
    | some bank => exact ⟨bank, s.xseed, s.sseed, rfl⟩
  | _ => exact ⟨s.secret, s.xseed, s.sseed, (rfl)⟩

/-- The shape of every command: it is refused for its read set, or it answers, and beside the response lines it
changes at most the architectural state and the count of draws. -/
def Answers (s : State) (out : Host.Outcome State Fault Refusal) : Prop :=
  out = .refused .sideEffectRead ∨
  ∃ bank x y d st v,
    out = .next (answering { s with secret := bank, xseed := x, sseed := y, draws := d } st v)

/-- Every command answers. -/
theorem exec_answers (i : Instr) (s : State) : Answers s (exec i s) := by
  cases exec_ends i s with
  | refused h => exact .inl h
  | failed st _ h => exact .inr ⟨s.secret, s.xseed, s.sseed, s.draws, st, 0, h⟩
  | succeeded t v d ht h =>
    obtain ⟨bank, x, y, he⟩ := archEffect_cases i s
    exact .inr ⟨bank, x, y, d, .ok, v, by rw [h, ← ht, he]⟩

/-! ## What a command reads -/

/-- A command reads no memory, and then goes on whatever memory holds; or it is a use of memory over its read set. -/
inductive Reads (i : Instr) : Prop where
  | nothing : (readSet i).2 = 0 →
    (∀ (s : State) (m : Memory) (b : Bool), ∃ t, exec i s = .next t ∧
      exec i { s with mem := m, torn := b } = .next { t with mem := m, torn := b }) → Reads i
  | window (f : Config → SecretBank → List Byte → Word) :
    (∀ s : State, exec i s = readWindow s (readSet i).1 (readSet i).2 (resultWidth i) (f s.cfg s.secret)) → Reads i

/-- What every command reads. -/
theorem exec_reads (i : Instr) : Reads i := by
  cases i with
  | read32 a n o =>
    by_cases h1 : rangeFails a n = true
    · exact .nothing (by simp [readSet, readerWindow, h1]) (by simp [exec, execRead32, h1, State.raise])
    · by_cases h2 : boundsFails n o 4 = true
      · exact .nothing (by simp [readSet, readerWindow, h2]) (by simp [exec, execRead32, h1, h2, State.raise])
      · refine .window (fun _ _ window => (rd32 window 0).setWidth 64) fun s => ?_
        simp [exec, execRead32, readSet, readerWindow, h1, h2, resultWidth]
  | read64 a n o =>
    by_cases h1 : rangeFails a n = true
    · exact .nothing (by simp [readSet, readerWindow, h1]) (by simp [exec, execRead64, h1, State.raise])
    · by_cases h2 : boundsFails n o 8 = true
      · exact .nothing (by simp [readSet, readerWindow, h2]) (by simp [exec, execRead64, h1, h2, State.raise])
      · refine .window (fun _ _ window => rd64 window 0) fun s => ?_
        simp [exec, execRead64, readSet, readerWindow, h1, h2, resultWidth]
  | tail a n =>
    by_cases h1 : rangeFails a n = true
    · exact .nothing (by simp [readSet, tailWindow, h1]) (by simp [exec, execTail, h1, State.raise])
    · by_cases h2 : tailFails n = true
      · exact .nothing (by simp [readSet, tailWindow, h2]) (by simp [exec, execTail, h1, h2, State.raise])
      · refine .window (fun _ _ buf => (tail3 buf 0 n.toNat).setWidth 64) fun s => ?_
        simp [exec, execTail, readSet, tailWindow, h1, h2, resultWidth]
  | hash64 a n d =>
    by_cases h1 : rangeFails a n = true
    · exact .nothing (by simp [readSet, hashWindow, h1]) (by simp [exec, execHash64, h1, State.raise])
    · refine .window (fun _ sec buf => hash64Value buf n.toNat d sec) fun s => ?_
      simp [exec, execHash64, readSet, hashWindow, h1, resultWidth]
  | hash64d a n d =>
    by_cases h1 : rangeFails a n = true
    · exact .nothing (by simp [readSet, hashWindow, h1]) (by simp [exec, execHash64d, h1, State.raise])
    · refine .window (fun cfg _ buf => hash64Value buf n.toNat d cfg.defaultSecret) fun s => ?_
      simp [exec, execHash64d, readSet, hashWindow, h1, resultWidth]
  | hash32 a n d =>
    by_cases h1 : rangeFails a n = true
    · exact .nothing (by simp [readSet, hashWindow, h1]) (by simp [exec, execHash32, h1, State.raise])
    · refine .window (fun cfg _ buf => (hash32Value cfg buf n.toNat (d.setWidth 32)).setWidth 64) fun s => ?_
      simp [exec, execHash32, readSet, hashWindow, h1, resultWidth]
  | setsec idx v =>
    refine .nothing rfl fun s m b => ?_
    simp only [exec, execSetsec]
    cases secretSet s.secret idx v <;> exact ⟨_, rfl, rfl⟩
  | getsec idx =>
    refine .nothing rfl fun s m b => ?_
    simp only [exec, execGetsec]
    cases secretGet s.secret idx <;> exact ⟨_, rfl, rfl⟩
  | _ => exact .nothing rfl fun s m b => ⟨_, rfl, rfl⟩

/-- Every request answers, legal or not. -/
theorem execPacket_answers (p : Packet) (s : State) : Answers s (execPacket p s) := by
  unfold execPacket
  split
  · exact exec_answers _ s
  · exact .inr ⟨s.secret, s.xseed, s.sseed, s.draws, .illegal, 0, rfl⟩

/-- What the next state of a request is. -/
theorem execPacket_next {p : Packet} {s t : State} (h : execPacket p s = .next t) :
    ∃ bank x y d st v, t = answering { s with secret := bank, xseed := x, sseed := y, draws := d } st v := by
  obtain h' | ⟨bank, x, y, d, st, v, h'⟩ := execPacket_answers p s
  · rw [h] at h'; cases h'
  · rw [h] at h'; cases h'; exact ⟨bank, x, y, d, st, v, rfl⟩

/-- What the next state of a command is. -/
theorem exec_next {i : Instr} {s t : State} (h : exec i s = .next t) :
    ∃ bank x y d st v, t = answering { s with secret := bank, xseed := x, sseed := y, draws := d } st v := by
  obtain h' | ⟨bank, x, y, d, st, v, h'⟩ := exec_answers i s
  · rw [h] at h'; cases h'
  · rw [h] at h'; cases h'; exact ⟨bank, x, y, d, st, v, rfl⟩

/-! ## Sequences -/

@[simp] theorem execAll_nil (s : State) : execAll [] s = .next s := (rfl)

/-- A sequence whose first command goes on. -/
theorem execAll_cons {i : Instr} {rest : List Instr} {s t : State} (h : exec i s = .next t) :
    execAll (i :: rest) s = execAll rest t := by
  rw [execAll, h]

/-- A sequence that goes on did so at its first command. -/
theorem execAll_cons_next {i : Instr} {rest : List Instr} {s t : State} (h : execAll (i :: rest) s = .next t) :
    ∃ u, exec i s = .next u ∧ execAll rest u = .next t := by
  rw [execAll] at h
  split at h
  · rename_i u hu; exact ⟨u, hu, h⟩
  · cases h
  · cases h

/-! ## The commands that read no memory, as rewriting rules -/

theorem exec_nop (s : State) : exec .nop s = .next (s.respond 0) := (rfl)
theorem exec_mix (l r : Word) (s : State) : exec (.mix l r) s = .next (s.respond (mix l r)) := (rfl)
theorem exec_random (d : Word) (s : State) : exec (.random d) s = .next (s.respond (random s.cfg d)) := (rfl)
theorem exec_xcreate (d : Word) (s : State) : exec (.xcreate d) s = .next ((s.setXseed d).respond 0) := (rfl)
theorem exec_xnext (s : State) : exec .xnext s
    = .next ((s.setXseed (s.xseed + prngMod s.cfg)).respond (random s.cfg (s.xseed + prngMod s.cfg))) := (rfl)
theorem exec_xinto (s : State) : exec .xinto s = .next (s.respond s.xseed) := (rfl)
theorem exec_screate (d : Word) (s : State) :
    exec (.screate d) s = .next ((s.setSseed (d + prngMod s.cfg)).respond 0) := (rfl)
theorem exec_snext (s : State) : exec .snext s
    = .next ((s.setSseed (s.sseed + prngMod s.cfg)).respond (random s.cfg s.sseed)) := (rfl)
theorem exec_sinto (s : State) : exec .sinto s = .next (s.respond s.sseed) := (rfl)

end Sys2Proof.Machine
end

