-- ==== Sys2Proof/Laws/Operands.lean ====
section
/-! SUPPORT. The buffer operand: when each status test fails, in the words of the rules; the little-endian reader word
by word; and what the readers and the loops of the pipelines look at. -/

namespace Sys2Proof.Machine

/-! ## Status tests (R183, R184) -/

theorem rangeFails_iff (addr len : Word) : rangeFails addr len = true ↔ addr.toNat + len.toNat > 2 ^ 64 :=
  decide_eq_true_iff

theorem rangeFails_eq_false (addr len : Word) : rangeFails addr len = false ↔ addr.toNat + len.toNat ≤ 2 ^ 64 :=
  decide_eq_false_iff_not.trans Nat.not_lt

theorem boundsFails_iff (len off : Word) (n : Nat) : boundsFails len off n = true ↔ off.toNat + n > len.toNat :=
  decide_eq_true_iff

theorem boundsFails_eq_false (len off : Word) (n : Nat) :
    boundsFails len off n = false ↔ off.toNat + n ≤ len.toNat :=
  decide_eq_false_iff_not.trans Nat.not_lt

theorem tailFails_iff (len : Word) : tailFails len = true ↔ len.toNat < 1 ∨ len.toNat > 3 := by
  simp [tailFails]

theorem tailFails_eq_false (len : Word) : tailFails len = false ↔ 1 ≤ len.toNat ∧ len.toNat ≤ 3 := by
  rw [← Bool.not_eq_true, tailFails_iff]; omega

/-! ## The reader -/

/-- One byte, then the rest 256 times as heavy. -/
theorem readLE_succ (w : Nat) (buf : List Byte) (o n : Nat) :
    readLE w buf o (n + 1) = (byteAt buf o).setWidth w ||| readLE w buf (o + 1) n <<< 8 := rfl

/-- `n` bytes make a number below `256 ^ n`. -/
theorem readLE_lt (w : Nat) (buf : List Byte) : ∀ (n o : Nat), (readLE w buf o n).toNat < 2 ^ (8 * n) := by
  intro n
  induction n with
  | zero => intro o; simp [readLE]
  | succ n ih =>
    intro o
    have hb := (byteAt buf o).isLt
    have hr := ih (o + 1)
    rw [readLE_succ, BitVec.toNat_or, BitVec.toNat_setWidth, BitVec.toNat_shiftLeft, Nat.shiftLeft_eq]
    have hp : 2 ^ (8 * (n + 1)) = 2 ^ (8 * n) * 2 ^ 8 := by rw [← Nat.pow_add]; congr 1
    apply Nat.or_lt_two_pow
    · have : 2 ^ 8 ≤ 2 ^ (8 * (n + 1)) := Nat.pow_le_pow_right (by omega) (by omega)
      exact lt_of_le_of_lt (Nat.mod_le _ _) (by omega)
    · exact lt_of_le_of_lt (Nat.mod_le _ _) (by omega)

/-- The value of a little-endian read whose bytes fit the width. -/
theorem readLE_succ_toNat {w n : Nat} (buf : List Byte) (o : Nat) (h : 8 * (n + 1) ≤ w) :
    (readLE w buf o (n + 1)).toNat = (byteAt buf o).toNat + 256 * (readLE w buf (o + 1) n).toNat := by
  have hb := (byteAt buf o).isLt
  have hr := readLE_lt w buf n (o + 1)
  have hp : 2 ^ (8 * n) * 2 ^ 8 ≤ 2 ^ w := by
    rw [← Nat.pow_add]; exact Nat.pow_le_pow_right (by omega) (by omega)
  have h8 : 2 ^ 8 ≤ 2 ^ w := Nat.pow_le_pow_right (by omega) (by omega)
  rw [readLE_succ, BitVec.toNat_or, BitVec.toNat_setWidth, BitVec.toNat_shiftLeft, Nat.shiftLeft_eq,
    Nat.mod_eq_of_lt (by omega), Nat.mod_eq_of_lt (by omega), Nat.or_comm, Nat.mul_comm _ (2 ^ 8),
    ← Nat.two_pow_add_eq_or_of_lt hb]
  omega

/-- A read depends on its own bytes alone. -/
theorem readLE_congr {w : Nat} {buf buf' : List Byte} : ∀ {n o : Nat},
    (∀ j, o ≤ j → j < o + n → byteAt buf j = byteAt buf' j) → readLE w buf o n = readLE w buf' o n := by
  intro n
  induction n with
  | zero => intros; rfl
  | succ n ih =>
    intro o h
    rw [readLE_succ, readLE_succ, h o (by omega) (by omega), ih fun j h1 h2 => h j (by omega) (by omega)]

/-- A byte of a buffer that memory holds. -/
theorem byteAt_of_bytesAt {m : Memory} {lo i : Nat} {buf : List Byte} {b : Byte} (h : bytesAt m lo buf)
    (hi : i < buf.length) (hb : memRead m (lo + i) = some b) : byteAt buf i = b := by
  have := h i hi
  rw [hb] at this
  simp [byteAt, List.getD, ← this]

/-! ## Loops -/

/-- The loop of phase 1, one block at a time, whatever the fuel, as long as there is enough of it. -/
theorem hash64Blocks_block {buf : List Byte} {sec : SecretBank} {fuel : Nat} {w : Work64} (h : w.rem > 64) :
    hash64Blocks buf sec (fuel + 1) w = hash64Blocks buf sec fuel
      ⟨w.p + 64, w.rem - 64, blockSeed buf sec w.p w.seed, blockExtra buf sec w.p w.seedExtra⟩ := by
  simp only [hash64Blocks, if_pos h]

/-- Phase 1 is over when at most 64 bytes remain. -/
theorem hash64Blocks_done {buf : List Byte} {sec : SecretBank} {fuel : Nat} {w : Work64} (h : ¬ w.rem > 64) :
    hash64Blocks buf sec fuel w = w := by
  cases fuel with
  | zero => rfl
  | succ n => simp only [hash64Blocks, if_neg h]

/-- The loop of phase 2, one step at a time. -/
theorem hash64Steps_step {buf : List Byte} {sec : SecretBank} {fuel : Nat} {w : Work64} (h : w.rem > 16) :
    hash64Steps buf sec (fuel + 1) w = hash64Steps buf sec fuel
      ⟨w.p + 16, w.rem - 16, mix (rd64 buf w.p ^^^ sec.w1) (rd64 buf (w.p + 8) ^^^ w.seed), w.seedExtra⟩ := by
  simp only [hash64Steps, if_pos h]

/-- Phase 2 is over when at most 16 bytes remain. -/
theorem hash64Steps_done {buf : List Byte} {sec : SecretBank} {fuel : Nat} {w : Work64} (h : ¬ w.rem > 16) :
    hash64Steps buf sec fuel w = w := by
  cases fuel with
  | zero => rfl
  | succ n => simp only [hash64Steps, if_neg h]

/-- The loop of the 32-bit pipeline, one step at a time. -/
theorem hash32Loop_step {cfg : Config} {buf : List Byte} {fuel : Nat} {w : Work32} (h : w.rem > 8) :
    hash32Loop cfg buf (fuel + 1) w = hash32Loop cfg buf fuel
      (remix32 cfg ⟨w.p + 8, w.rem - 8, w.seed ^^^ rd32 buf w.p, w.see1 ^^^ rd32 buf (w.p + 4)⟩) := by
  simp only [hash32Loop, if_pos h]

/-- The loop of the 32-bit pipeline is over when at most 8 bytes remain. -/
theorem hash32Loop_done {cfg : Config} {buf : List Byte} {fuel : Nat} {w : Work32} (h : ¬ w.rem > 8) :
    hash32Loop cfg buf fuel w = w := by
  cases fuel with
  | zero => rfl
  | succ n => simp only [hash32Loop, if_neg h]

end Sys2Proof.Machine
end

