-- ==== Sys2Proof/Laws/PerInstr.lean ====
section
/-! SUPPORT. Facts proved once per command, for the case split over all of them.

Family `EncodeFramed`: the encoding of a command is a packet with the operand words its header announces, so a port
frames it (R60, R62). -/

namespace Sys2Proof.Laws.EncodeFramed

open Sys2Proof.Machine

/-- The operands of the encoding are as many as `NOPS` says. -/
def Statement (i : Instr) : Prop := packetFramed (encode i)

/-- The count comes from the opcode's format. -/
theorem of_length (i : Instr) (h : (instrOperands i).length = (formatNops (opcodeFormat (instrOpcode i))).toNat) :
    Statement i := by
  simp only [Statement, packetFramed, encode, headerNops_encodeHeader]; exact h

theorem nop : Statement .nop := of_length _ rfl
theorem mix (left right : Word) : Statement (.mix left right) := of_length _ rfl
theorem read32 (addr len off : Word) : Statement (.read32 addr len off) := of_length _ rfl
theorem read64 (addr len off : Word) : Statement (.read64 addr len off) := of_length _ rfl
theorem tail (addr len : Word) : Statement (.tail addr len) := of_length _ rfl
theorem hash64 (addr len seed : Word) : Statement (.hash64 addr len seed) := of_length _ rfl
theorem hash64d (addr len seed : Word) : Statement (.hash64d addr len seed) := of_length _ rfl
theorem hash32 (addr len seed : Word) : Statement (.hash32 addr len seed) := of_length _ rfl
theorem random (seed : Word) : Statement (.random seed) := of_length _ rfl
theorem xcreate (seed : Word) : Statement (.xcreate seed) := of_length _ rfl
theorem xnext : Statement .xnext := of_length _ rfl
theorem xinto : Statement .xinto := of_length _ rfl
theorem screate (seed : Word) : Statement (.screate seed) := of_length _ rfl
theorem snext : Statement .snext := of_length _ rfl
theorem sinto : Statement .sinto := of_length _ rfl
theorem setsec (idx : BitVec 3) (value : Word) : Statement (.setsec idx value) := of_length _ rfl
theorem getsec (idx : BitVec 3) : Statement (.getsec idx) := of_length _ rfl

end Sys2Proof.Laws.EncodeFramed
end

