-- ==== Sys2Proof/Laws/Ports.lean ====
section
/-! SUPPORT. The ports and the arbiter: what framing, accepting, choosing and delivering can do. -/

namespace Sys2Proof.Machine

/-! ## Framing -/

/-- What a port cuts off: the header word and as many words as its `NOPS` says, and the rest. -/
theorem frame_eq_some {ws rest : List Word} {pkt : Packet} (h : frame ws = some (pkt, rest)) :
    ∃ b, ws = b :: (pkt.operands ++ rest) ∧ pkt.header = beatHeader b ∧ packetFramed pkt := by
  cases ws with
  | nil => cases h
  | cons b tl =>
    simp only [frame] at h
    split at h
    · cases h
    · rename_i hlen
      simp only [Option.some.injEq, Prod.mk.injEq] at h
      obtain ⟨rfl, rfl⟩ := h
      exact ⟨b, by simp [List.take_append_drop], rfl, by simp only [packetFramed, List.length_take]; omega⟩

/-- A header word with all its operands behind it is framed, whatever follows. -/
theorem frame_append (b : Word) (ops rest : List Word) (h : ops.length = (headerNops (beatHeader b)).toNat) :
    frame (b :: (ops ++ rest)) = some (⟨beatHeader b, ops⟩, rest) := by
  simp [frame, ← h]

/-! ## Words held at ports -/

theorem portWords_append (p : Nat) (xs ys : List (Nat × Word)) :
    portWords p (xs ++ ys) = portWords p xs ++ portWords p ys := by
  induction xs with
  | nil => rfl
  | cons e rest ih =>
    obtain ⟨q, w⟩ := e
    by_cases h : q = p <;> simp [portWords, h, ih]

theorem portWords_map_same (p : Nat) (ws : List Word) : portWords p (ws.map fun w => (p, w)) = ws := by
  induction ws with
  | nil => rfl
  | cons w rest ih => simp [portWords, ih]

theorem portWords_map_other {p q : Nat} (h : q ≠ p) (ws : List Word) :
    portWords q (ws.map fun w => (p, w)) = [] := by
  induction ws with
  | nil => rfl
  | cons w rest ih => simp [portWords, h.symm, ih]

/-- A port's own words go from the front. -/
theorem portWords_dropWords_same (p : Nat) (held : List (Nat × Word)) :
    ∀ n, portWords p (dropWords p n held) = (portWords p held).drop n := by
  induction held with
  | nil => intro n; cases n <;> simp [dropWords, portWords]
  | cons e rest ih =>
    obtain ⟨q, w⟩ := e
    intro n
    cases n with
    | zero => simp [dropWords]
    | succ n => by_cases h : q = p <;> simp [dropWords, portWords, h, ih]

/-- Other ports keep theirs. -/
theorem portWords_dropWords_other {p q : Nat} (hq : q ≠ p) (held : List (Nat × Word)) :
    ∀ n, portWords q (dropWords p n held) = portWords q held := by
  induction held with
  | nil => intro n; cases n <;> simp [dropWords]
  | cons e rest ih =>
    obtain ⟨r, w⟩ := e
    intro n
    cases n with
    | zero => simp [dropWords]
    | succ n =>
      by_cases h : r = p
      · simp [dropWords, portWords, h, hq.symm, ih]
      · simp [dropWords, portWords, h, ih]

/-- Dropping words adds none. -/
theorem mem_of_mem_dropWords {p : Nat} {held : List (Nat × Word)} {e : Nat × Word} :
    ∀ {n : Nat}, e ∈ dropWords p n held → e ∈ held := by
  induction held with
  | nil => intro n h; cases n <;> simp [dropWords] at h
  | cons x rest ih =>
    obtain ⟨q, w⟩ := x
    intro n h
    cases n with
    | zero => simpa [dropWords] using h
    | succ n =>
      by_cases hq : q = p
      · simp only [dropWords, if_pos hq] at h
        exact List.mem_cons_of_mem _ (ih h)
      · simp only [dropWords, if_neg hq, List.mem_cons] at h
        exact List.mem_cons.2 (h.imp_right ih)

/-! ## Accepting -/

/-- A port is busy when it is the port of a request in flight. -/
theorem portBusy_iff (p : Nat) (rs : List Request) : portBusy p rs = true ↔ p ∈ rs.map Request.port := by
  simp [portBusy]

/-- A port accepts nothing, or its oldest whole packet when it is free. -/
theorem State.accept_cases (s : State) (p : Nat) :
    (s.accept p = s ∧ (portBusy p s.inFlight = true ∨ frame (portWords p s.held) = none)) ∨
    ∃ pkt rest, portBusy p s.inFlight = false ∧ frame (portWords p s.held) = some (pkt, rest) ∧
      s.accept p = { s with
        inFlight := s.inFlight ++ [⟨p, pkt, false, Config.arbiterWait s.draws⟩]
        held := dropWords p (1 + pkt.operands.length) s.held
        draws := s.draws + 1 } := by
  unfold State.accept
  split
  · rename_i h; exact .inl ⟨rfl, .inl h⟩
  · rename_i h
    split
    · rename_i hf; exact .inl ⟨rfl, .inr hf⟩
    · rename_i pkt rest hf; exact .inr ⟨pkt, rest, by simpa using h, hf, rfl⟩

@[simp] theorem State.accept_secret (s : State) (p : Nat) : (s.accept p).secret = s.secret := by
  obtain ⟨h, -⟩ | ⟨_, _, -, -, h⟩ := s.accept_cases p <;> rw [h]
@[simp] theorem State.accept_xseed (s : State) (p : Nat) : (s.accept p).xseed = s.xseed := by
  obtain ⟨h, -⟩ | ⟨_, _, -, -, h⟩ := s.accept_cases p <;> rw [h]
@[simp] theorem State.accept_sseed (s : State) (p : Nat) : (s.accept p).sseed = s.sseed := by
  obtain ⟨h, -⟩ | ⟨_, _, -, -, h⟩ := s.accept_cases p <;> rw [h]
@[simp] theorem State.accept_mem (s : State) (p : Nat) : (s.accept p).mem = s.mem := by
  obtain ⟨h, -⟩ | ⟨_, _, -, -, h⟩ := s.accept_cases p <;> rw [h]
@[simp] theorem State.accept_cfg (s : State) (p : Nat) : (s.accept p).cfg = s.cfg := by
  obtain ⟨h, -⟩ | ⟨_, _, -, -, h⟩ := s.accept_cases p <;> rw [h]
@[simp] theorem State.accept_answer (s : State) (p : Nat) : (s.accept p).answer = s.answer := by
  obtain ⟨h, -⟩ | ⟨_, _, -, -, h⟩ := s.accept_cases p <;> rw [h]
@[simp] theorem State.accept_torn (s : State) (p : Nat) : (s.accept p).torn = s.torn := by
  obtain ⟨h, -⟩ | ⟨_, _, -, -, h⟩ := s.accept_cases p <;> rw [h]
@[simp] theorem State.accept_sent (s : State) (p : Nat) : (s.accept p).sent = s.sent := by
  obtain ⟨h, -⟩ | ⟨_, _, -, -, h⟩ := s.accept_cases p <;> rw [h]
@[simp] theorem State.accept_agenda (s : State) (p : Nat) : (s.accept p).agenda = s.agenda := by
  obtain ⟨h, -⟩ | ⟨_, _, -, -, h⟩ := s.accept_cases p <;> rw [h]

/-! ## Delivering -/

/-- A response is sent on the port it belongs to. -/
theorem State.deliver_of_answer {s : State} {a : Response} (h : s.answer = some a) (p : Nat) :
    s.deliver p = { s with answer := none, torn := false, sent := s.sent ++ [⟨p, a⟩] } := by
  simp [State.deliver, h]

/-- At most one response is sent. -/
theorem State.deliver_sent_cases (s : State) (p : Nat) :
    (s.deliver p).sent = s.sent ∨ ∃ a, s.answer = some a ∧ (s.deliver p).sent = s.sent ++ [⟨p, a⟩] := by
  unfold State.deliver
  split
  · exact .inl rfl
  · rename_i a h; exact .inr ⟨a, h, rfl⟩

@[simp] theorem State.deliver_secret (s : State) (p : Nat) : (s.deliver p).secret = s.secret := by
  unfold State.deliver; split <;> rfl
@[simp] theorem State.deliver_xseed (s : State) (p : Nat) : (s.deliver p).xseed = s.xseed := by
  unfold State.deliver; split <;> rfl
@[simp] theorem State.deliver_sseed (s : State) (p : Nat) : (s.deliver p).sseed = s.sseed := by
  unfold State.deliver; split <;> rfl
@[simp] theorem State.deliver_mem (s : State) (p : Nat) : (s.deliver p).mem = s.mem := by
  unfold State.deliver; split <;> rfl
@[simp] theorem State.deliver_cfg (s : State) (p : Nat) : (s.deliver p).cfg = s.cfg := by
  unfold State.deliver; split <;> rfl
@[simp] theorem State.deliver_inFlight (s : State) (p : Nat) : (s.deliver p).inFlight = s.inFlight := by
  unfold State.deliver; split <;> rfl
@[simp] theorem State.deliver_held (s : State) (p : Nat) : (s.deliver p).held = s.held := by
  unfold State.deliver; split <;> rfl
@[simp] theorem State.deliver_answer (s : State) (p : Nat) : (s.deliver p).answer = none := by
  unfold State.deliver; split
  · assumption
  · rfl
@[simp] theorem State.deliver_torn (s : State) (p : Nat) : (s.deliver p).torn = false := by
  unfold State.deliver; split <;> rfl
@[simp] theorem State.deliver_agenda (s : State) (p : Nat) : (s.deliver p).agenda = s.agenda := by
  unfold State.deliver; split <;> rfl
@[simp] theorem State.deliver_draws (s : State) (p : Nat) : (s.deliver p).draws = s.draws := by
  unfold State.deliver; split <;> rfl

/-! ## Finishing -/

@[simp] theorem State.finish_secret (s : State) (p : Nat) : (s.finish p).secret = s.secret := by simp [State.finish]
@[simp] theorem State.finish_xseed (s : State) (p : Nat) : (s.finish p).xseed = s.xseed := by simp [State.finish]
@[simp] theorem State.finish_sseed (s : State) (p : Nat) : (s.finish p).sseed = s.sseed := by simp [State.finish]
@[simp] theorem State.finish_mem (s : State) (p : Nat) : (s.finish p).mem = s.mem := by simp [State.finish]
@[simp] theorem State.finish_cfg (s : State) (p : Nat) : (s.finish p).cfg = s.cfg := by simp [State.finish]
@[simp] theorem State.finish_answer (s : State) (p : Nat) : (s.finish p).answer = none := by simp [State.finish]
@[simp] theorem State.finish_torn (s : State) (p : Nat) : (s.finish p).torn = false := by simp [State.finish]
@[simp] theorem State.finish_agenda (s : State) (p : Nat) : (s.finish p).agenda = s.agenda := by simp [State.finish]

/-- After a command its response is the last one sent. -/
theorem State.finish_sent {s : State} {a : Response} (h : s.answer = some a) (p : Nat) :
    (s.finish p).sent = s.sent ++ [⟨p, a⟩] := by
  rw [State.finish, State.accept_sent, State.deliver_of_answer h]

/-! ## Choosing -/

/-- The arbiter takes nothing exactly when nothing is in flight. -/
theorem takeNext_eq_none {rs : List Request} : takeNext rs = none ↔ rs = [] := by
  cases rs with
  | nil => simp [takeNext]
  | cons r rest =>
    simp only [takeNext]
    split
    · simp
    · split <;> simp

/-- Where the taken request stood: those before it wait for more, those after it for no fewer, and the others keep
their order. -/
theorem takeNext_eq_some {rs others : List Request} {r : Request} (h : takeNext rs = some (r, others)) :
    ∃ before after, rs = before ++ r :: after ∧ others = before ++ after ∧
      (∀ x ∈ before, r.waits < x.waits) ∧ ∀ x ∈ after, r.waits ≤ x.waits := by
  induction rs generalizing r others with
  | nil => cases h
  | cons x rest ih =>
    simp only [takeNext] at h
    split at h
    · rename_i hn
      simp only [Option.some.injEq, Prod.mk.injEq] at h
      obtain ⟨rfl, rfl⟩ := h
      exact ⟨[], [], by simp [takeNext_eq_none.1 hn], rfl, by simp, by simp⟩
    · rename_i m ms hm
      obtain ⟨before, after, hrest, hothers, hb, ha⟩ := ih hm
      split at h
      · rename_i hlt
        simp only [Option.some.injEq, Prod.mk.injEq] at h
        obtain ⟨rfl, rfl⟩ := h
        exact ⟨x :: before, after, by simp [hrest], by simp [hothers], by simpa using ⟨hlt, hb⟩, ha⟩
      · rename_i hge
        simp only [Option.some.injEq, Prod.mk.injEq] at h
        obtain ⟨rfl, rfl⟩ := h
        refine ⟨[], rest, rfl, rfl, by simp, fun y hy => ?_⟩
        rw [hrest, List.mem_append, List.mem_cons] at hy
        rcases hy with hy | rfl | hy
        · have := hb y hy; omega
        · omega
        · have := ha y hy; omega

@[simp] theorem passOver_port (r : Request) : (passOver r).port = r.port := (rfl)
@[simp] theorem passOver_packet (r : Request) : (passOver r).packet = r.packet := (rfl)
@[simp] theorem passOver_torn (r : Request) : (passOver r).torn = r.torn := (rfl)
@[simp] theorem passOver_waits (r : Request) : (passOver r).waits = r.waits - 1 := (rfl)

/-! ## Tearing -/

/-- Tearing sets one flag at most. -/
theorem tearBy_eq (addr : Nat) (r : Request) : ∃ b, tearBy addr r = { r with torn := b } ∧
    (b = true ↔ r.torn = true ∨ ∃ i, decode r.packet = .ok i ∧ inReadSet i addr = true) := by
  unfold tearBy
  split
  · rename_i e he
    exact ⟨r.torn, rfl, ⟨.inl, by rintro (h | ⟨i, hi, -⟩); exacts [h, by rw [he] at hi; cases hi]⟩⟩
  · rename_i i hi
    split
    · rename_i h; exact ⟨true, rfl, by simp [hi, h]⟩
    · rename_i h; exact ⟨r.torn, rfl, by simp [hi, h]⟩

end Sys2Proof.Machine
end

