-- ==== Sys2Proof/Laws/Step.lean ====
section
/-! SUPPORT. What a step can do, once: every invariant is derived from `step_cases`. -/

namespace Sys2Proof.Machine

/-- What the arbiter's turn leads to when it goes on: nothing was in flight, or one request was taken, executed and
answered on its port. -/
theorem arbiterTurn_next {s t : State} (h : arbiterTurn s = .next t) :
    (s.inFlight = [] ∧ t = s) ∨
    ∃ r others u, takeNext s.inFlight = some (r, others) ∧ execPacket r.packet (s.grant r others) = .next u ∧
      t = u.finish r.port := by
  unfold arbiterTurn at h
  split at h
  · rename_i hn; cases h; exact .inl ⟨takeNext_eq_none.1 hn, rfl⟩
  · rename_i r others hr
    unfold execRequest at h
    split at h
    · rename_i u hu; cases h; exact .inr ⟨r, others, u, hr, hu, rfl⟩
    · cases h
    · cases h

/-- What a step leads to when it goes on: the arbiter's turn, words put on an existing port, a change of memory, or a
reset of the idle block. -/
theorem step_cases {s t : State} (h : step s = .next t) :
    (∃ rest, (s.agenda = [] ∧ rest = [] ∨ s.agenda = .arbiter :: rest) ∧
      arbiterTurn { s with agenda := rest } = .next t) ∨
    (∃ p beats rest, s.agenda = .send p beats :: rest ∧ p < s.cfg.numPorts ∧
      t = { s with agenda := rest, held := s.held ++ beats.map (fun w => (p, w)) }.accept p) ∨
    (∃ addr cell rest, s.agenda = .platform addr cell :: rest ∧
      t = { s with
        agenda := rest
        mem := memSet s.mem addr.toNat cell
        inFlight := s.inFlight.map (tearBy addr.toNat) }) ∨
    (∃ rest, s.agenda = .reset :: rest ∧ s.inFlight = [] ∧
      t = { s with
        agenda := rest
        secret := s.cfg.defaultSecret
        xseed := 0
        sseed := prngMod s.cfg
        inFlight := []
        held := []
        answer := none
        torn := false }) := by
  unfold step at h
  split at h
  · rename_i ha
    refine .inl ⟨[], .inl ⟨ha, rfl⟩, ?_⟩
    rw [← ha]; exact h
  · rename_i turn rest ha
    cases turn with
    | arbiter => exact .inl ⟨rest, .inr ha, h⟩
    | send p beats =>
      simp only [takeTurn, sendTurn] at h
      split at h
      · rename_i hp; cases h; exact .inr (.inl ⟨p, beats, rest, ha, hp, rfl⟩)
      · cases h
    | platform addr cell => cases h; exact .inr (.inr (.inl ⟨addr, cell, rest, ha, rfl⟩))
    | reset =>
      simp only [takeTurn, resetTurn] at h
      split at h
      · rename_i hn; cases h; exact .inr (.inr (.inr ⟨rest, ha, hn, rfl⟩))
      · cases h

end Sys2Proof.Machine
end

