-- ==== Sys2Proof/Tests/Slice0.lean ====
section
/-! SUPPORT. The model's own tests: well-formedness, decoding of words written out from R61 and R65, one step per
command with the values of the spec's worked examples and vectors, and a witness for the hypotheses of every statement
that has some.  Every expected value is the spec's; the rule or the section of 95_test_vectors.md is named. -/

-- As in Word.lean.
set_option Elab.async false

namespace Sys2Proof.Tests

open Sys2Proof.Machine

/-! ## Small states -/

/-- The bytes `bs` listed from address `a` on. -/
def listedFrom (a : Nat) : List Byte → Memory → Memory
  | [], rest => rest
  | b :: bs, rest => (a, b) :: listedFrom (a + 1) bs rest

/-- `pattern(n)` of 95_test_vectors.md. -/
def pattern (n : Nat) : List Byte := (List.range n).map (BitVec.ofNat 8)

/-- "hello world". -/
def hello : List Byte := [0x68, 0x65, 0x6c, 0x6c, 0x6f, 0x20, 0x77, 0x6f, 0x72, 0x6c, 0x64]

/-- After reset, with "hello world" at 0x1000, "1234" at 0x2000, pattern(129) at 0x3000 and the last two bytes of the
address space readable. -/
def demo : State :=
  { State.reset with
    mem := listedFrom 0x1000 hello (listedFrom 0x2000 [0x31, 0x32, 0x33, 0x34] (listedFrom 0x3000 (pattern 129)
      [(0xFFFFFFFFFFFFFFFE, 0xaa), (0xFFFFFFFFFFFFFFFF, 0xbb)])) }

/-- `demo` with read side effects at 0x1004 to 0x1007. -/
def fifo : State := { demo with cfg := { demo.cfg with sideEffectRegions := [⟨0x1004, 4⟩] } }

/-- The next state, if there is one. -/
def nextOf : Host.Outcome State Fault Refusal → Option State
  | .next t => some t
  | .fault _ => none
  | .refused _ => none

/-- The response of the next state. -/
def answerOf (o : Host.Outcome State Fault Refusal) : Option Response :=
  match nextOf o with
  | some t => t.answer
  | none => none

/-! ## Well-formedness: each check refuses an ill-formed term (R24, R66) -/

theorem test_setsec_4_wellFormed : (Instr.setsec 4 0).wellFormed = true := by decide
theorem test_setsec_5_refused : (Instr.setsec 5 0).wellFormed = false := by decide
theorem test_setsec_7_refused : (Instr.setsec 7 0).wellFormed = false := by decide
theorem test_getsec_4_wellFormed : (Instr.getsec 4).wellFormed = true := by decide
theorem test_getsec_5_refused : (Instr.getsec 5).wellFormed = false := by decide

/-! ## Decoding: bit 31:14 zero, NOPS 13:12, bit 11 zero, IDX 10:8, OPC 7:0 (R61, R65), operands from bit 32 on -/

theorem test_decode_nop : decodeTableWord 32 0b00000000000000_00_0_000_00000000 = some .nop := by decide
theorem test_decode_mix :
    decodeTableWord 160 (0b00000000000000_10_0_000_00000001 + 2 * 2 ^ 32 + 3 * 2 ^ 96) = some (.mix 2 3) := by
  decide
theorem test_decode_read32 :
    decodeTableWord 224 (0b00000000000000_11_0_000_00000010 + 0x1000 * 2 ^ 32 + 11 * 2 ^ 96 + 7 * 2 ^ 160)
      = some (.read32 0x1000 11 7) := by decide
theorem test_decode_read64 :
    decodeTableWord 224 (0b00000000000000_11_0_000_00000011 + 0x1000 * 2 ^ 32 + 11 * 2 ^ 96 + 3 * 2 ^ 160)
      = some (.read64 0x1000 11 3) := by decide
theorem test_decode_tail :
    decodeTableWord 160 (0b00000000000000_10_0_000_00000100 + 0x1000 * 2 ^ 32 + 3 * 2 ^ 96)
      = some (.tail 0x1000 3) := by decide
theorem test_decode_hash64 :
    decodeTableWord 224 (0b00000000000000_11_0_000_00010000 + 0x1000 * 2 ^ 32 + 11 * 2 ^ 96 + 5 * 2 ^ 160)
      = some (.hash64 0x1000 11 5) := by decide
theorem test_decode_hash64d :
    decodeTableWord 224 (0b00000000000000_11_0_000_00010001 + 0x1000 * 2 ^ 32 + 11 * 2 ^ 96)
      = some (.hash64d 0x1000 11 0) := by decide
theorem test_decode_hash32 :
    decodeTableWord 224 (0b00000000000000_11_0_000_00010010 + 0x2000 * 2 ^ 32 + 4 * 2 ^ 96)
      = some (.hash32 0x2000 4 0) := by decide
theorem test_decode_random :
    decodeTableWord 96 (0b00000000000000_01_0_000_00100000 + 5 * 2 ^ 32) = some (.random 5) := by decide
theorem test_decode_xcreate :
    decodeTableWord 96 (0b00000000000000_01_0_000_00110000 + 9 * 2 ^ 32) = some (.xcreate 9) := by decide
theorem test_decode_xnext : decodeTableWord 32 0b00000000000000_00_0_000_00110001 = some .xnext := by decide
theorem test_decode_xinto : decodeTableWord 32 0b00000000000000_00_0_000_00110010 = some .xinto := by decide
theorem test_decode_screate :
    decodeTableWord 96 (0b00000000000000_01_0_000_00111000 + 0xFFFFFFFFFFFFFFFF * 2 ^ 32)
      = some (.screate 0xFFFFFFFFFFFFFFFF) := by decide
theorem test_decode_snext : decodeTableWord 32 0b00000000000000_00_0_000_00111001 = some .snext := by decide
theorem test_decode_sinto : decodeTableWord 32 0b00000000000000_00_0_000_00111010 = some .sinto := by decide
theorem test_decode_setsec :
    decodeTableWord 96 (0b00000000000000_01_0_010_01000000 + 1 * 2 ^ 32) = some (.setsec 2 1) := by decide
theorem test_decode_getsec : decodeTableWord 32 0b00000000000000_00_0_011_01000001 = some (.getsec 3) := by decide

/-- L2.1: the ILLEGAL headers, each with its reason. -/
theorem test_decode_illegal :
    decodeHeader 0x00001540 = .error .secretIndex ∧ decodeHeader 0x00000541 = .error .secretIndex ∧
    decodeHeader 0x00002010 = .error .operandCount ∧ decodeHeader 0x00013010 = .error .reservedBits ∧
    decodeHeader 0x00000831 = .error .reservedBits ∧ decodeHeader 0x00002101 = .error .idxOnNonIndexed ∧
    decodeHeader 0x00000005 = .error .reservedOpcode ∧ decodeHeader 0x000030ff = .error .reservedOpcode ∧
    decodeHeader 0x00001000 = .error .operandCount := by decide

/-- No two rows of the opcode map match a common header (R66). -/
theorem test_rows_do_not_overlap :
    opcodeRows.Pairwise (fun a b => opcodeMatch a &&& opcodeMask b ≠ opcodeMatch b &&& opcodeMask a) := by decide

/-- R69: the example of the assembler syntax, with a comment. -/
theorem test_assembler_example :
    assembleText "HASH64D 0x1000, 11, 0 ; the example" = some [⟨0x00003011, [0x1000, 0xb, 0]⟩] := by decide +kernel

/-- R69: no row has an index above 4, nor a fourth operand. -/
theorem test_assembler_rejects :
    assembleText "GETSEC 5" = none ∧ assembleText "MIX 1, 2, 3" = none ∧ assembleText "JUMP 1" = none := by
  decide +kernel

/-! ## One step per command -/

/-- R170. -/
theorem test_nop : answerOf (exec .nop demo) = some ⟨.ok, 0⟩ := by decide +kernel
/-- R87. -/
theorem test_mix : answerOf (exec (.mix 0xdeadbeef 0xcafebabe) demo) = some ⟨.ok, 0xb092ab7b88cf5b62⟩ := by
  decide +kernel
/-- R83: the top corner. -/
theorem test_mix_top : answerOf (exec (.mix 0xFFFFFFFFFFFFFFFF 0xFFFFFFFFFFFFFFFF) demo)
    = some ⟨.ok, 0xFFFFFFFFFFFFFFFF⟩ := by decide +kernel
/-- R84. -/
theorem test_read32 : answerOf (exec (.read32 0x1000 11 7) demo) = some ⟨.ok, 0x646c726f⟩ := by decide +kernel
/-- R186: RANGE before BOUNDS. -/
theorem test_read32_priority : answerOf (exec (.read32 0xFFFFFFFFFFFFFFFE 4 8) demo) = some ⟨.range, 0⟩ := by
  decide +kernel
/-- R85. -/
theorem test_read64 : answerOf (exec (.read64 0x1000 11 3) demo) = some ⟨.ok, 0x646c726f77206f6c⟩ := by
  decide +kernel
/-- R85. -/
theorem test_read64_bounds : answerOf (exec (.read64 0x1000 11 5) demo) = some ⟨.bounds, 0⟩ := by decide +kernel
/-- R86. -/
theorem test_tail : answerOf (exec (.tail 0x1000 3) demo) = some ⟨.ok, 0x68656c⟩ := by decide +kernel
/-- R86. -/
theorem test_tail_one : answerOf (exec (.tail 0x1000 1) demo) = some ⟨.ok, 0x686868⟩ := by decide +kernel
/-- R171: with `SECRET[1]` at 0. -/
theorem test_hash64 : answerOf (exec (.hash64 0x1000 11 0) { demo with secret := { demo.secret with w1 := 0 } })
    = some ⟨.ok, 0x9c45790988ca775f⟩ := by decide +kernel
/-- L2.3: pattern(129), two blocks and a tail of one byte. -/
theorem test_hash64_blocks : answerOf (exec (.hash64 0x3000 129 0x0123456789abcdef) demo)
    = some ⟨.ok, 0x44359ea987c2e5af⟩ := by decide +kernel
/-- R108. -/
theorem test_hash64d : answerOf (exec (.hash64d 0x1000 11 0) demo) = some ⟨.ok, 0x456071d81abb2f58⟩ := by
  decide +kernel
/-- R108. -/
theorem test_hash64d_empty : answerOf (exec (.hash64d 0x9999 0 1) demo) = some ⟨.ok, 0x1ff5c2923a788d2c⟩ := by
  decide +kernel
/-- R124, with the default constants. -/
theorem test_hash32 : answerOf (exec (.hash32 0x2000 4 0) demo) = some ⟨.ok, 0x0b89ca8b⟩ := by decide +kernel
/-- R124: `seed[63:32]` is ignored. -/
theorem test_hash32_seed : answerOf (exec (.hash32 0 0 0x100000000) demo) = some ⟨.ok, 0xa45f982f⟩ := by
  decide +kernel
/-- R143, with the default partner. -/
theorem test_random : answerOf (exec (.random 0xa0761d6478bd642f) demo) = some ⟨.ok, 0x111cb3a78f59a58e⟩ := by
  decide +kernel
/-- R144: the raw seed. -/
theorem test_xcreate : (nextOf (exec (.xcreate 7) demo)).map (fun t => (t.xseed, t.answer))
    = some (7, some ⟨.ok, 0⟩) := by decide +kernel
/-- R145: the wrap, with the default partner. -/
theorem test_xnext : (nextOf (exec .xnext { demo with xseed := 0xFFFFFFFFFFFFFFFF })).map
    (fun t => (t.xseed, t.answer)) = some (0xa0761d6478bd642e, some ⟨.ok, 0xba1dc814e82d5d44⟩) := by decide +kernel
/-- R146: the seed is read and kept. -/
theorem test_xinto : (nextOf (exec .xinto { demo with xseed := 0x40ec3ac8f17ac85e })).map
    (fun t => (t.xseed, t.answer)) = some (0x40ec3ac8f17ac85e, some ⟨.ok, 0x40ec3ac8f17ac85e⟩) := by decide +kernel
/-- R147: the pre-advance wraps. -/
theorem test_screate : (nextOf (exec (.screate 0xFFFFFFFFFFFFFFFF) demo)).map (fun t => (t.sseed, t.answer))
    = some (0xa0761d6478bd642e, some ⟨.ok, 0⟩) := by decide +kernel
/-- R148: the first SNEXT after reset, with the default partner. -/
theorem test_snext : (nextOf (exec .snext demo)).map (fun t => (t.sseed, t.answer))
    = some (0x40ec3ac8f17ac85e, some ⟨.ok, 0x111cb3a78f59a58e⟩) := by decide +kernel
/-- R149: the next seed to be consumed. -/
theorem test_sinto : answerOf (exec .sinto { demo with sseed := 0xe162582d6a382c8d })
    = some ⟨.ok, 0xe162582d6a382c8d⟩ := by decide +kernel
/-- R171: one word of five. -/
theorem test_setsec : (nextOf (exec (.setsec 3 5) demo)).map (fun t => (t.secret, t.answer))
    = some ({ demo.secret with w3 := 5 }, some ⟨.ok, 0⟩) := by decide +kernel
/-- R171: an illegal index writes nothing. -/
theorem test_setsec_illegal : nextOf (exec (.setsec 5 5) demo) = some { demo with answer := some ⟨.illegal, 0⟩ } := by
  decide +kernel
/-- R172. -/
theorem test_getsec : answerOf (exec (.getsec 4) demo) = some ⟨.ok, 0x1d8e4e27c47d124f⟩ := by decide +kernel
/-- R172: an illegal index. -/
theorem test_getsec_illegal : answerOf (exec (.getsec 7) demo) = some ⟨.illegal, 0⟩ := by decide +kernel

/-! ## Errors and steps -/

/-- R183: a buffer that ends with the address space is legal, one byte more is RANGE. -/
theorem test_range_edge : answerOf (exec (.tail 0xFFFFFFFFFFFFFFFE 2) demo) = some ⟨.ok, 0xaabbbb⟩ ∧
    answerOf (exec (.tail 0xFFFFFFFFFFFFFFFE 3) demo) = some ⟨.range, 0⟩ := by decide +kernel
/-- R185: one byte past "hello world" is BUS. -/
theorem test_bus : answerOf (exec (.hash64d 0x1000 12 0) demo) = some ⟨.bus, 0⟩ := by decide +kernel
/-- R48: only the reads that touch the region are refused. -/
theorem test_side_effect : exec (.read32 0x1000 11 1) fifo = .refused .sideEffectRead ∧
    answerOf (exec (.read32 0x1000 11 0) fifo) = some ⟨.ok, 0x6c6c6568⟩ :=
  ⟨rfl, by decide +kernel⟩
/-- The step after `withFetchWord` sends the command's response on port 0. -/
theorem test_step : (nextOf (step (demo.withFetchWord 32 0x00000441))).map (fun t => (t.sent, t.inFlight))
    = some ([⟨0, ⟨.ok, 0x1d8e4e27c47d124f⟩⟩], []) := by decide +kernel
/-- R182, R192: an ILLEGAL request is answered on its port. -/
theorem test_step_illegal : (nextOf (step (demo.withFetchWord 32 0x00000541))).map State.sent
    = some [⟨0, ⟨.illegal, 0⟩⟩] := by decide +kernel
/-- R62, R193: the port holds what is not yet a whole packet. -/
theorem test_send_partial : (nextOf (step { demo with agenda := [.send 1 [0x00002001, 2]] })).map
    (fun t => (t.inFlight, t.held)) = some ([], [(1, 0x00002001), (1, 2)]) := by decide +kernel
/-- R52(e), R204: a write to the read set of a request in flight tears it, another write does not. -/
theorem test_tear : (tearBy 0x1003 ⟨0, ⟨0x00002004, [0x1001, 3]⟩, false, 0⟩).torn = true ∧
    (tearBy 0x1004 ⟨0, ⟨0x00002004, [0x1001, 3]⟩, false, 0⟩).torn = false := by decide +kernel

/-! ## Witnesses: the hypotheses of each statement are met, each clause at a boundary value

A witness says only that the premises hold together of something concrete. -/

theorem witness_DecodeOfEncode : (Instr.setsec 4 0xFFFFFFFFFFFFFFFF).wellFormed = true := by decide

theorem witness_EncodeOfDecode :
    decode ⟨0x00003002, [0x1000, 11, 7]⟩ = .ok (.read32 0x1000 11 7) ∧ decode ⟨0x00000441, []⟩ = .ok (.getsec 4) := by
  decide

/-- Bits 31, 14 and 11; a reserved opcode; a wrong count; indexes 5 and 4; an index where none belongs; NOP. -/
theorem witness_HeaderDecodesByProcedure :
    (0x80000000#32).toNat / 2 ^ 14 ≠ 0 ∧ (0x00004000#32).toNat / 2 ^ 14 ≠ 0 ∧ (0x00000800#32).toNat / 2 ^ 11 % 2 ≠ 0 ∧
    ((0x00000005#32).toNat / 2 ^ 14 = 0 ∧ ∀ op ∈ opcodeRows, (opcodeByte op).toNat ≠ (0x00000005#32).toNat % 2 ^ 8) ∧
    ((opcodeByte .hash64).toNat = (0x00002010#32).toNat % 2 ^ 8 ∧
      (0x00002010#32).toNat / 2 ^ 12 % 4 ≠ (formatNops (opcodeFormat .hash64)).toNat) ∧
    ((opcodeByte .getsec).toNat = (0x00000541#32).toNat % 2 ^ 8 ∧
      (0x00000541#32).toNat / 2 ^ 12 % 4 = (formatNops (opcodeFormat .getsec)).toNat ∧
      formatIndexed (opcodeFormat .getsec) = true ∧ (0x00000541#32).toNat / 2 ^ 8 % 8 > 4) ∧
    ((opcodeByte .getsec).toNat = (0x00000441#32).toNat % 2 ^ 8 ∧ (0x00000441#32).toNat / 2 ^ 8 % 8 ≤ 4) ∧
    (formatIndexed (opcodeFormat .mix) = false ∧ (opcodeByte .mix).toNat = (0x00002101#32).toNat % 2 ^ 8 ∧
      (0x00002101#32).toNat / 2 ^ 8 % 8 ≠ 0) ∧
    ((opcodeByte .nop).toNat = (0x00000000#32).toNat % 2 ^ 8 ∧ (0x00000000#32).toNat / 2 ^ 8 % 8 = 0) := by decide

theorem witness_IllegalRequestExecutesNothing :
    (∀ op ∈ opcodeRows, opcodeByte op ≠ headerOpc 0x000030ff) ∧ headerRsv 0x00004000 ≠ 0 ∧
    headerRsv11 0x00000831 ≠ 0 ∧
    (opcodeByte .nop = headerOpc 0x00001000 ∧ headerNops 0x00001000 ≠ formatNops (opcodeFormat .nop)) ∧
    (opcodeByte .mix = headerOpc 0x00002101 ∧ headerIdx 0x00002101 ≠ 0) ∧
    (opcodeByte .setsec = headerOpc 0x00001540 ∧ (headerIdx 0x00001540).toNat > 4) := by decide

/-- An incomplete packet; the two operands behind the ILLEGAL header of R71; the longest packet. -/
theorem witness_PortFramesByNopsAlone :
    [(0x2 : Word)].length < (0x00002001#64).toNat / 2 ^ 12 % 4 ∧
    [(7 : Word), 8].length = (0x00002010#64).toNat / 2 ^ 12 % 4 ∧
    packetFramed ⟨0x00003012, [0x2000, 4, 0]⟩ := by decide

theorem witness_TailReaderPlacesThreeBytes : (1 ≤ 1 ∧ 1 ≤ 3) ∧ (1 ≤ 2 ∧ 2 ≤ 3) ∧ 1 ≤ 3 ∧ 3 ≤ 3 := by decide

/-- Both sides of the RANGE edge and of the BOUNDS edge; a readable window and an unreadable one. -/
theorem witness_Read32Command :
    (0xFFFFFFFFFFFFFFFE#64).toNat + (3#64).toNat > 2 ^ 64 ∧
    ((0xFFFFFFFFFFFFFFFC#64).toNat + (4#64).toNat ≤ 2 ^ 64 ∧ (1#64).toNat + 4 > (4#64).toNat) ∧
    ((0x1000#64).toNat + (11#64).toNat ≤ 2 ^ 64 ∧ (7#64).toNat + 4 ≤ (11#64).toNat ∧
      touchesSideEffect demo.cfg (0x1000 + 7) 4 = false ∧ bytesAt demo.mem (0x1000 + 7) [0x6f, 0x72, 0x6c, 0x64] ∧
      demo.torn = false) ∧
    (touchesSideEffect demo.cfg 0x1008 4 = false ∧ ∃ i < 4, memRead demo.mem (0x1008 + i) = none) := by
  refine ⟨by decide, by decide, ⟨by decide, by decide, by decide, ?_, rfl⟩, by decide, 3, by decide, by decide +kernel⟩
  unfold bytesAt; decide +kernel

theorem witness_Read64Command :
    (0xFFFFFFFFFFFFFFFE#64).toNat + (3#64).toNat > 2 ^ 64 ∧
    ((0xFFFFFFFFFFFFFFF8#64).toNat + (8#64).toNat ≤ 2 ^ 64 ∧ (1#64).toNat + 8 > (8#64).toNat) ∧
    ((0x1000#64).toNat + (11#64).toNat ≤ 2 ^ 64 ∧ (3#64).toNat + 8 ≤ (11#64).toNat ∧
      touchesSideEffect demo.cfg (0x1000 + 3) 8 = false ∧
      bytesAt demo.mem (0x1000 + 3) [0x6c, 0x6f, 0x20, 0x77, 0x6f, 0x72, 0x6c, 0x64] ∧ demo.torn = false) ∧
    (touchesSideEffect demo.cfg 0x1004 8 = false ∧ ∃ i < 8, memRead demo.mem (0x1004 + i) = none) := by
  refine ⟨by decide, by decide, ⟨by decide, by decide, by decide, ?_, rfl⟩, by decide, 7, by decide, by decide +kernel⟩
  unfold bytesAt; decide +kernel

/-- Lengths 0 and 4 fail, 2 at the end of the address space reads, 3 past the end of "hello world" does not. -/
theorem witness_TailCommand :
    (0xFFFFFFFFFFFFFFFE#64).toNat + (3#64).toNat > 2 ^ 64 ∧
    ((0#64).toNat < 1 ∧ (4#64).toNat > 3) ∧
    ((0xFFFFFFFFFFFFFFFE#64).toNat + (2#64).toNat ≤ 2 ^ 64 ∧ 1 ≤ (2#64).toNat ∧ (2#64).toNat ≤ 3 ∧
      touchesSideEffect demo.cfg 0xFFFFFFFFFFFFFFFE 2 = false ∧
      memRead demo.mem 0xFFFFFFFFFFFFFFFE = some 0xaa ∧
      memRead demo.mem (0xFFFFFFFFFFFFFFFE + 2 / 2) = some 0xbb ∧
      memRead demo.mem (0xFFFFFFFFFFFFFFFE + 2 - 1) = some 0xbb ∧ demo.torn = false) ∧
    (touchesSideEffect demo.cfg 0x1009 3 = false ∧ ∃ i < 3, memRead demo.mem (0x1009 + i) = none) := by
  refine ⟨by decide, by decide, ⟨by decide, by decide, by decide, by decide, ?_, ?_, ?_, rfl⟩, by decide, 2, by decide,
    ?_⟩ <;> decide +kernel

theorem witness_Hash64PathFollowsLength : 65 > 64 ∧ 17 > 16 ∧ 16 ≤ 16 := by decide

/-- Two buffers of 65 bytes that differ in byte 32 alone; a buffer that is the whole address space. -/
theorem witness_SeedExtraIsDiscarded :
    (∀ j, byteAt (pattern 65) j = byteAt ((pattern 65).set 32 0xff) j ∨
      (65 > 64 ∧ j < 64 * ((65 - 64 + 63) / 64) ∧ j % 64 ≥ 32)) ∧
    pattern 65 ≠ (pattern 65).set 32 0xff ∧
    (1#64).toNat + (0xFFFFFFFFFFFFFFFF#64).toNat ≤ 2 ^ 64 := by
  refine ⟨fun j => ?_, by decide +kernel, by decide⟩
  by_cases h : j = 32
  · subst h; exact .inr (by decide)
  · exact .inl (by simp [byteAt, List.getD, Ne.symm h])

/-- Three bytes; and 17 bytes whose first eight are `SECRET[1]`, so that phase 2 ends with seed 0 and one byte. -/
theorem witness_ShortBufferWithSeedZeroHashesToZero :
    3 ≤ 3 ∧
    (let buf : List Byte :=
        [0xdb, 0x28, 0xb4, 0xa0, 0xd1, 0x7e, 0x03, 0xe7, 0, 0, 0, 0, 0, 0, 0, 0, 0x61]
      let after1 := hash64Blocks buf demo.secret 17 ⟨0, 17, 5, 5⟩
      let after2 := hash64Steps buf demo.secret after1.rem after1
      after2.seed = 0 ∧ after2.rem ≤ 3) := by decide +kernel

/-- For HASH64, HASH64D and HASH32: a buffer past the end, an unreadable one, "hello world", and the empty buffer at
the last address. -/
theorem witness_Hash64Command :
    (0xFFFFFFFFFFFFFFFF#64).toNat + (2#64).toNat > 2 ^ 64 ∧
    ((0x1000#64).toNat + (12#64).toNat ≤ 2 ^ 64 ∧ touchesSideEffect demo.cfg 0x1000 12 = false ∧
      ∃ i < 12, memRead demo.mem (0x1000 + i) = none) ∧
    (touchesSideEffect demo.cfg 0x1000 11 = false ∧ hello.length = (11#64).toNat ∧ bytesAt demo.mem 0x1000 hello ∧
      demo.torn = false) ∧
    ((0xFFFFFFFFFFFFFFFF#64).toNat + (0#64).toNat ≤ 2 ^ 64 ∧ (0#64).toNat ≤ 3) := by
  refine ⟨by decide, ⟨by decide, by decide, 11, by decide, by decide +kernel⟩, ⟨by decide, rfl, ?_, rfl⟩, by decide⟩
  unfold bytesAt; decide +kernel

theorem witness_Hash64dCommand :
    (touchesSideEffect demo.cfg 0x1000 11 = false ∧ hello.length = (11#64).toNat ∧ bytesAt demo.mem 0x1000 hello ∧
      demo.torn = false) ∧
    demo.cfg.defaultSecret
      = ⟨0xa0761d6478bd642f, 0xe7037ed1a0b428db, 0x8ebc6af09c88c6e3, 0x589965cc75374cc3, 0x1d8e4e27c47d124f⟩ :=
  ⟨witness_Hash64Command.2.2.1, rfl⟩

theorem witness_Hash64WithResetBankIsDefaultHash : demo.secret = demo.cfg.defaultSecret := rfl

theorem witness_Mix32CutsTheProduct :
    demo.cfg.hash32Mod1.toNat < 2 ^ 32 ∧ demo.cfg.hash32Mod2.toNat < 2 ^ 32 := by decide

theorem witness_Hash32PathFollowsLength : 9 > 8 ∧ 8 ≤ 8 := by decide

theorem witness_Hash32Command :
    (touchesSideEffect demo.cfg 0x1000 11 = false ∧ hello.length = (11#64).toNat ∧ bytesAt demo.mem 0x1000 hello ∧
      demo.torn = false) ∧
    (0x100000000#64).toNat % 2 ^ 32 = (0#64).toNat % 2 ^ 32 :=
  ⟨witness_Hash64Command.2.2.1, by decide⟩

theorem witness_RandomCommand : demo.cfg.partner = ⟨0xe7037ed1a0b428db, []⟩ := rfl

theorem witness_ExclusiveChannelCommands :
    (0xa0761d6478bd642e#64).toNat = ((0xFFFFFFFFFFFFFFFF#64).toNat + (prngMod demo.cfg).toNat) % 2 ^ 64 ∧
    prngMod demo.cfg ≠ 0 := by decide +kernel

theorem witness_SharedChannelCommands :
    (0xa0761d6478bd642e#64).toNat = ((0xFFFFFFFFFFFFFFFF#64).toNat + (prngMod demo.cfg).toNat) % 2 ^ 64 ∧
    (0x40ec3ac8f17ac85e#64).toNat = (demo.sseed.toNat + (prngMod demo.cfg).toNat) % 2 ^ 64 := by decide +kernel

theorem witness_SeedSequenceHasFullPeriod : (prngMod demo.cfg).toNat % 2 = 1 := by decide +kernel

theorem witness_FirstNextsDifferFromRandomOfZero :
    prngMod demo.cfg = 0xa0761d6478bd642f ∧ demo.cfg.partner = ⟨0xe7037ed1a0b428db, []⟩ ∧
    random demo.cfg (prngMod demo.cfg) ≠ 0 ∧ random demo.cfg (prngMod demo.cfg + prngMod demo.cfg) ≠ 0 := by
  decide +kernel

theorem witness_SharedSeedAdvancesOncePerSnext :
    (∀ a, Instr.screate a ∉ [.snext, .xcreate 5, .nop, .snext]) ∧
    (nextOf (execAll [.snext, .xcreate 5, .nop, .snext] demo)).isSome = true := by
  exact ⟨by simp, by decide +kernel⟩

theorem witness_NopCommand : decode ⟨0, []⟩ = .ok .nop ∧ headerOpc 0x00000100 = 0x00 ∧ (0x00000100 : Half) ≠ 0 := by
  decide

theorem witness_SecretBankCommands : (4#3).toNat ≤ 4 ∧ (5#3).toNat > 4 := by decide

/-- A command that writes nothing meets every premise of the frame at once. -/
theorem witness_CommandFrame : (∃ t, exec (.getsec 4) demo = .next t) ∧
    (∀ idx v, Instr.getsec 4 ≠ .setsec idx v) ∧ (∀ a, Instr.getsec 4 ≠ .xcreate a) ∧ Instr.getsec 4 ≠ .xnext ∧
    (∀ a, Instr.getsec 4 ≠ .screate a) ∧ Instr.getsec 4 ≠ .snext := by
  exact ⟨⟨_, rfl⟩, by simp⟩

theorem witness_PureCommandsIgnoreArchitecturalState :
    (∃ t, exec (.mix 2 3) demo = .next t) ∧ exec (.read32 0x1000 11 4) fifo = .refused .sideEffectRead :=
  ⟨⟨_, rfl⟩, rfl⟩

theorem witness_PrngModIsConstantAndIgnoresTheBank :
    (∃ t, step { demo with agenda := [.platform 0x1000 none] } = .next t) ∧ (∃ t, exec .xinto demo = .next t) :=
  ⟨⟨_, rfl⟩, ⟨_, rfl⟩⟩

/-- A request that fails, and one that does not. -/
theorem witness_FailedRequestWritesNothing :
    (∃ t, execPacket ⟨0x00000005, []⟩ demo = .next t ∧ t.answer = some ⟨.illegal, 0⟩) ∧
    (∃ t, execPacket ⟨0x00000032, []⟩ demo = .next t ∧ t.answer = some ⟨.ok, 0⟩) :=
  ⟨⟨_, rfl, rfl⟩, ⟨_, rfl, rfl⟩⟩

/-- Each status that the clauses speak of is some command's. -/
theorem witness_StatusCodesAndTheirCommands :
    answerOf (exec (.setsec 5 0) demo) = some ⟨.illegal, 0⟩ ∧
    answerOf (exec (.hash32 0xFFFFFFFFFFFFFFFF 2 0) demo) = some ⟨.range, 0⟩ ∧
    answerOf (exec (.hash64 0x1000 12 0) demo) = some ⟨.bus, 0⟩ ∧
    answerOf (exec (.tail 0x1000 4) demo) = some ⟨.bounds, 0⟩ ∧
    answerOf (exec (.screate 9) demo) = some ⟨.ok, 0⟩ := by decide +kernel

/-- Another memory with the same two bytes in the read set; and an unreadable byte in a read set. -/
theorem witness_ReadSetIsExact :
    (∀ a, inReadSet (.tail 0xFFFFFFFFFFFFFFFE 2) a = true →
      memRead [(0xFFFFFFFFFFFFFFFE, 0xaa), (0xFFFFFFFFFFFFFFFF, 0xbb)] a = memRead demo.mem a) ∧
    (inReadSet (.hash64 0x1000 12 0) 0x100b = true ∧ memRead demo.mem 0x100b = none ∧
      touchesSideEffect demo.cfg (readSet (.hash64 0x1000 12 0)).1 (readSet (.hash64 0x1000 12 0)).2 = false) ∧
    ((0xFFFFFFFFFFFFFFF8#64).toNat + (8#64).toNat ≤ 2 ^ 64 ∧ (4#64).toNat + 4 ≤ (8#64).toNat ∧
      (0#64).toNat + 8 ≤ (8#64).toNat ∧ 1 ≤ (3#64).toNat ∧ (3#64).toNat ≤ 3) := by
  refine ⟨fun a h => ?_, by decide +kernel, by decide⟩
  have h' : 0xFFFFFFFFFFFFFFFE ≤ a ∧ a < 0xFFFFFFFFFFFFFFFE + 2 := by
    have e : readSet (.tail 0xFFFFFFFFFFFFFFFE 2) = (0xFFFFFFFFFFFFFFFE, 2) := by decide
    rw [inReadSet, e] at h
    simpa only [Bool.and_eq_true, decide_eq_true_eq] using h
  obtain rfl | rfl : a = 0xFFFFFFFFFFFFFFFE ∨ a = 0xFFFFFFFFFFFFFFFF := by omega
  · decide +kernel
  · decide +kernel

/-- The last byte of a read set is the first of the region; one byte less is not refused. -/
theorem witness_SideEffectMemoryIsRefused :
    (inReadSet (.tail 0x1002 3) 0x1004 = true ∧ (⟨0x1004, 4⟩ : Region) ∈ fifo.cfg.sideEffectRegions) ∧
    inReadSet (.tail 0x1002 2) 0x1004 = false := by decide

/-- A torn buffer whose command reads, and one whose command fails. -/
theorem witness_TornBufferGivesAnyValue :
    ({ demo with torn := true } : State).torn = true ∧ (readSet (.tail 0x1000 3)).2 ≠ 0 ∧
    answerOf (exec (.tail 0x1000 3) { { demo with torn := true } with torn := false }) = some ⟨.ok, 0x68656c⟩ ∧
    answerOf (exec (.tail 0x1009 3) { { demo with torn := true } with torn := false }) = some ⟨.bus, 0⟩ := by
  decide +kernel

/-- Both forms of the arbiter's turn; a command that is refused; and a word of the opcode table. -/
theorem witness_StepRunsTheDecodedCommand :
    (takeNext [⟨1, ⟨0x00000032, []⟩, false, 3⟩] = some (⟨1, ⟨0x00000032, []⟩, false, 3⟩, []) ∧
      decode ⟨0x00000032, []⟩ = .ok .xinto) ∧
    decodeTableWord 32 0x00000032 = some .xinto ∧
    (∃ t, exec .xinto { demo with agenda := [], inFlight := [], torn := false } = .next t) ∧
    exec (.read32 0x1000 11 4) { fifo with agenda := [], inFlight := [], torn := false }
      = .refused .sideEffectRead := by
  exact ⟨by decide, by decide, ⟨_, rfl⟩, rfl⟩

theorem witness_StepAnswersAnIllegalRequest :
    ({ demo with inFlight := [⟨1, ⟨0x00000005, []⟩, false, 0⟩] } : State).agenda = [] ∧
    takeNext [⟨1, ⟨0x00000005, []⟩, false, 0⟩] = some (⟨1, ⟨0x00000005, []⟩, false, 0⟩, []) ∧
    decode ⟨0x00000005, []⟩ = .error .reservedOpcode := by
  exact ⟨rfl, by decide, by decide⟩

/-- A legal state with a request in flight, from which a step goes on. -/
theorem witness_StepKeepsInvariant :
    (demo.withFetchWord 32 0x00000032).Inv ∧ ∃ t, step (demo.withFetchWord 32 0x00000032) = .next t := by
  refine ⟨⟨by decide +kernel, by decide, by decide, by decide, ?_, by decide, fun p _ => rfl, rfl, rfl⟩, ⟨_, rfl⟩⟩
  intro r hr
  obtain rfl : r = ⟨0, tablePacket 32 0x00000032, false, 0⟩ := by simpa [State.withFetchWord] using hr
  decide

theorem witness_StepFrame : demo.mem.wf = true ∧ (∃ t, step (demo.withFetchWord 32 0x00000032) = .next t) ∧
    ∃ t, step { demo with agenda := [.platform 0x1000 none] } = .next t := by
  exact ⟨by decide +kernel, ⟨_, rfl⟩, ⟨_, rfl⟩⟩

theorem witness_PortAcceptsItsOldestPacket :
    portBusy 1 [⟨1, ⟨0, []⟩, false, 0⟩] = true ∧ portBusy 0 [⟨1, ⟨0, []⟩, false, 0⟩] = false ∧
    frame (portWords 0 [(1, 7), (0, 0x00001020), (0, 5), (0, 0)]) = some (⟨0x00001020, [5]⟩, [0]) := by decide

/-- The last port WYCORE has, free and busy, and the first it has not. -/
theorem witness_SentPacketIsInFlight :
    packetFramed ⟨0x00002010, [1, 2]⟩ ∧ 1 < demo.cfg.numPorts ∧ portWords 1 demo.held = [] ∧
    portBusy 1 demo.inFlight = false ∧ portBusy 1 [⟨1, ⟨0, []⟩, false, 0⟩] = true ∧ ¬ 2 < demo.cfg.numPorts := by
  decide

theorem witness_ResponseDoesNotDependOnPort :
    demo.agenda = [] ∧ ∃ t, step { demo with inFlight := [⟨0, ⟨0x00000032, []⟩, false, 0⟩] } = .next t :=
  ⟨rfl, ⟨_, rfl⟩⟩

theorem witness_EveryArbitrationOrderIsPossible :
    ([⟨0, ⟨0, []⟩, false, 0⟩, ⟨1, ⟨0, []⟩, false, 0⟩].map Request.port).Nodup ∧
    [1, 0].Perm ([⟨0, ⟨0, []⟩, false, 0⟩, ⟨1, ⟨0, []⟩, false, 0⟩].map Request.port) := by decide

/-- The second of two requests, which waits for one other, is answered within three turns. -/
theorem witness_EveryRequestIsAnsweredInFiniteTime :
    demo.agenda = [] ∧ 1 + 1 < 3 ∧
    (nextOf (Host.Core.run Sys2Proof.core 3
      { demo with inFlight := [⟨0, ⟨0, []⟩, false, 1⟩, ⟨1, ⟨0x00000032, []⟩, false, 1⟩] })).isSome = true := by
  exact ⟨rfl, by decide, by decide +kernel⟩

theorem witness_PlatformWriteIsVisible :
    demo.mem.wf = true ∧ ({ demo with agenda := [.platform 0x1000 (some 0x41)] } : State).agenda
      = .platform 0x1000 (some 0x41) :: [] := by
  exact ⟨by decide +kernel, rfl⟩

theorem witness_ResetSetsArchitecturalState :
    ({ demo with agenda := [.reset] } : State).agenda = .reset :: [] ∧
    ({ demo with agenda := [.reset] } : State).inFlight = [] := ⟨rfl, rfl⟩

theorem witness_ResetWithRequestInFlightIsRefused :
    ({ demo with agenda := [.reset], inFlight := [⟨0, ⟨0, []⟩, false, 0⟩] } : State).agenda = .reset :: [] ∧
    ({ demo with agenda := [.reset], inFlight := [⟨0, ⟨0, []⟩, false, 0⟩] } : State).inFlight ≠ [] ∧
    ({ demo with agenda := [.reset] } : State).agenda = .reset :: [] ∧
    ({ demo with agenda := [.reset] } : State).inFlight = [] :=
  ⟨rfl, by decide, rfl, rfl⟩

theorem witness_ResetIsTheBootSequence :
    ({ demo with agenda := [.reset] } : State).agenda = .reset :: [] ∧
    ({ demo with agenda := [.reset] } : State).inFlight = [] ∧
    demo.cfg.defaultSecret
      = ⟨0xa0761d6478bd642f, 0xe7037ed1a0b428db, 0x8ebc6af09c88c6e3, 0x589965cc75374cc3, 0x1d8e4e27c47d124f⟩ :=
  ⟨rfl, rfl, rfl⟩

/-- "hello world", and the empty buffer at the last address. -/
theorem witness_LoadedSecretIsUsedAtOnce :
    (demo.torn = false ∧ (0x1000#64).toNat + (11#64).toNat ≤ 2 ^ 64 ∧ touchesSideEffect demo.cfg 0x1000 11 = false ∧
      hello.length = (11#64).toNat ∧ bytesAt demo.mem 0x1000 hello) ∧
    (demo.torn = false ∧ (0#64) = 0) :=
  have ⟨hq, hn, hb, ht⟩ := witness_Hash64Command.2.2.1
  ⟨⟨ht, by decide, hq, hn, hb⟩, ht, rfl⟩

end Sys2Proof.Tests
end

section
/-! # The legal state is kept by every step

A port that has just been freed, or has just been given words, may hold a whole request with none in flight.
`State.InvBut p` says that this is all that can be wrong, and at port `p` alone; accepting at `p` mends it.  So the
arbiter's turn and a requester's turn, which both end in `State.accept`, are each one lemma about `InvBut`. -/

namespace Sys2Proof.Machine

/-- Legal, except that port `p` may hold a whole request while it is free. -/
structure State.InvBut (p : Nat) (s : State) : Prop where
  memory : s.mem.wf = true
  ports : 1 ≤ s.cfg.numPorts
  onePerPort : (s.inFlight.map Request.port).Nodup
  requestPorts : ∀ r ∈ s.inFlight, r.port < s.cfg.numPorts
  framed : ∀ r ∈ s.inFlight, packetFramed r.packet
  heldPorts : ∀ e ∈ s.held, e.1 < s.cfg.numPorts
  noneStalled : ∀ q, q ≠ p → portBusy q s.inFlight = false → frame (portWords q s.held) = none
  answered : s.answer = none
  idle : s.torn = false

/-! ## Ports of requests -/

/-- A port is free when no request in flight is on it. -/
theorem portBusy_eq_false_iff (p : Nat) (rs : List Request) :
    portBusy p rs = false ↔ p ∉ rs.map Request.port := by
  rw [← portBusy_iff, Bool.not_eq_true]

@[simp] theorem tearBy_port (addr : Nat) (r : Request) : (tearBy addr r).port = r.port := by
  obtain ⟨_, h, -⟩ := tearBy_eq addr r; rw [h]

@[simp] theorem tearBy_packet (addr : Nat) (r : Request) : (tearBy addr r).packet = r.packet := by
  obtain ⟨_, h, -⟩ := tearBy_eq addr r; rw [h]

/-- Tearing moves no request to another port. -/
@[simp] theorem map_port_tearBy (addr : Nat) (rs : List Request) :
    (rs.map (tearBy addr)).map Request.port = rs.map Request.port := by
  simp [Function.comp_def]

/-- Passing over moves no request to another port. -/
@[simp] theorem map_port_passOver (rs : List Request) :
    (rs.map passOver).map Request.port = rs.map Request.port := by
  simp [Function.comp_def]

/-- The arbiter divides the requests in flight into the one it takes and the others. -/
theorem takeNext_perm {rs others : List Request} {r : Request} (h : takeNext rs = some (r, others)) :
    rs.Perm (r :: others) := by
  obtain ⟨before, after, rfl, rfl, -, -⟩ := takeNext_eq_some h
  exact List.perm_middle

/-! ## Accepting mends -/

/-- A port that has had its chance to accept is stalled no more. -/
theorem State.InvBut.accept {s : State} {p : Nat} (h : s.InvBut p) (hp : p < s.cfg.numPorts) :
    (s.accept p).Inv := by
  obtain ⟨hs, hno⟩ | ⟨pkt, rest, hfree, hf, hs⟩ := s.accept_cases p
  · -- Nothing is accepted, since the port is busy or holds no whole request.
    rw [hs]
    refine { h with noneStalled := fun q hq => ?_ }
    by_cases hqp : q = p
    · subst hqp
      exact hno.resolve_left (by simp [hq])
    · exact h.noneStalled q hqp hq
  · -- The oldest packet is accepted, and from then on the port is busy.
    obtain ⟨_, -, -, hframed⟩ := frame_eq_some hf
    rw [portBusy_eq_false_iff] at hfree
    rw [hs]
    refine { h with onePerPort := ?_, requestPorts := ?_, framed := ?_, heldPorts := ?_, noneStalled := ?_ }
    · rw [List.map_append, List.map_singleton, ← List.concat_eq_append]
      exact h.onePerPort.concat hfree
    · exact List.forall_mem_append.2 ⟨h.requestPorts, List.forall_mem_singleton.2 hp⟩
    · exact List.forall_mem_append.2 ⟨h.framed, List.forall_mem_singleton.2 hframed⟩
    · exact fun e he => h.heldPorts e (mem_of_mem_dropWords he)
    · intro q hq
      obtain ⟨hq, hqp⟩ : portBusy q s.inFlight = false ∧ q ≠ p := by
        simpa [portBusy_eq_false_iff] using hq
      rw [portWords_dropWords_other hqp]
      exact h.noneStalled q hqp hq

/-! ## One lemma per turn -/

/-- The turns to come have no part in what is legal. -/
theorem State.Inv.setAgenda {s : State} (h : s.Inv) (turns : List Turn) :
    ({ s with agenda := turns } : State).Inv := { h with }

/-- Words put on a port can stall that port alone. -/
theorem State.Inv.hold {s : State} (h : s.Inv) {p : Nat} (hp : p < s.cfg.numPorts) (beats : List Word) :
    ({ s with held := s.held ++ beats.map (fun w => (p, w)) } : State).InvBut p := by
  refine { h with heldPorts := ?_, noneStalled := fun q hqp hq => ?_ }
  · exact List.forall_mem_append.2 ⟨h.heldPorts, List.forall_mem_map.2 fun _ _ => hp⟩
  · rw [portWords_append, portWords_map_other hqp, List.append_nil]
    exact h.noneStalled q hq

/-- A change of memory keeps the listing canonical and every request on its port, with its packet. -/
theorem State.Inv.platform {s : State} (h : s.Inv) (addr : Word) (cell : Option Byte) :
    ({ s with
      mem := memSet s.mem addr.toNat cell
      inFlight := s.inFlight.map (tearBy addr.toNat) } : State).Inv := by
  refine { h with memory := ?_, onePerPort := ?_, requestPorts := ?_, framed := ?_, noneStalled := ?_ }
  · exact memSet_wf h.memory _ cell addr.isLt
  · simpa only [map_port_tearBy] using h.onePerPort
  · exact List.forall_mem_map.2 (by simpa using h.requestPorts)
  · exact List.forall_mem_map.2 (by simpa using h.framed)
  · simpa only [portBusy_eq_false_iff, map_port_tearBy] using h.noneStalled

/-- Reset leaves nothing in flight and no words held. -/
theorem State.Inv.reset {s : State} (h : s.Inv) (bank : SecretBank) (x y : Word) :
    ({ s with
      secret := bank, xseed := x, sseed := y
      inFlight := [], held := [], answer := none, torn := false } : State).Inv :=
  { memory := h.memory, ports := h.ports, onePerPort := List.nodup_nil, requestPorts := by simp, framed := by simp,
    heldPorts := by simp, noneStalled := fun _ _ => rfl, answered := rfl, idle := rfl }

/-- A taken request that has been executed and answered leaves at most its own port stalled. -/
theorem State.Inv.deliver {s u : State} (h : s.Inv) {r : Request} {others : List Request}
    (hr : takeNext s.inFlight = some (r, others)) (hu : execPacket r.packet (s.grant r others) = .next u) :
    (u.deliver r.port).InvBut r.port := by
  have hperm := takeNext_perm hr
  have hsub : ∀ x ∈ others, x ∈ s.inFlight := fun x hx => hperm.mem_iff.2 (List.mem_cons_of_mem r hx)
  have hnodup : ((r :: others).map Request.port).Nodup := (hperm.map _).nodup_iff.1 h.onePerPort
  obtain ⟨bank, x, y, d, st, v, rfl⟩ := execPacket_next hu
  constructor
  case memory => simpa using h.memory
  case ports => simpa using h.ports
  case onePerPort => simpa [Function.comp_def] using hnodup.of_cons
  case requestPorts => simpa using fun x hx => h.requestPorts x (hsub x hx)
  case framed => simpa using fun x hx => h.framed x (hsub x hx)
  case heldPorts => simpa using h.heldPorts
  case noneStalled =>
    intro q hqr hq
    have hfree : q ∉ (r :: others).map Request.port := by
      simpa [portBusy_eq_false_iff, hqr] using hq
    have hq' : portBusy q s.inFlight = false := by
      rwa [portBusy_eq_false_iff, (hperm.map _).mem_iff]
    simpa using h.noneStalled q hq'
  case answered => simp
  case idle => simp

/-- The arbiter's turn keeps the legal state: it can only stall the port it frees, and that port then accepts. -/
theorem State.Inv.arbiterTurn {s t : State} (h : s.Inv) (ht : arbiterTurn s = .next t) : t.Inv := by
  obtain ⟨-, rfl⟩ | ⟨r, others, u, hr, hu, rfl⟩ := arbiterTurn_next ht
  · exact h
  · have hport : r.port < s.cfg.numPorts :=
      h.requestPorts r ((takeNext_perm hr).mem_iff.2 List.mem_cons_self)
    refine (h.deliver hr hu).accept ?_
    obtain ⟨_, _, _, _, _, _, rfl⟩ := execPacket_next hu
    simpa using hport

/-- Settles O48, turn by turn. -/
theorem stepKeepsInvariant : Obligations.StepKeepsInvariant := by
  unfold Obligations.StepKeepsInvariant
  intro s t h ht
  obtain ⟨rest, -, harb⟩ | ⟨p, beats, rest, -, hp, rfl⟩ | ⟨addr, cell, rest, -, rfl⟩ | ⟨rest, -, -, rfl⟩ :=
    step_cases ht
  · exact (h.setAgenda rest).arbiterTurn harb
  · exact ((h.setAgenda rest).hold hp beats).accept hp
  · exact (h.setAgenda rest).platform addr cell
  · exact (h.setAgenda rest).reset _ _ _

end Sys2Proof.Machine
end

section
/-! # Commands that ignore the architectural state (R20) -/

namespace Sys2Proof.Machine

/-- `s` with another bank and other seeds. -/
def State.withArch (bank : SecretBank) (x y : Word) (s : State) : State :=
  { s with secret := bank, xseed := x, sseed := y }

/-- An outcome with its next state, if there is one, changed. -/
def mapNext (f : State → State) : Host.Outcome State Fault Refusal → Host.Outcome State Fault Refusal
  | .next t => .next (f t)
  | .fault e => .fault e
  | .refused why => .refused why

/-- The commands that R20 says neither write nor read the architectural state. -/
def PureCommand (i : Instr) : Prop :=
  i = .nop ∨ (∃ l r, i = .mix l r) ∨ (∃ a n o, i = .read32 a n o) ∨ (∃ a n o, i = .read64 a n o) ∨
    (∃ a n, i = .tail a n) ∨ (∃ a n d, i = .hash64d a n d) ∨ (∃ a n d, i = .hash32 a n d) ∨ (∃ d, i = .random d)

variable (bank : SecretBank) (x y : Word) (s : State)

@[simp] theorem State.withArch_mem : (s.withArch bank x y).mem = s.mem := (rfl)
@[simp] theorem State.withArch_cfg : (s.withArch bank x y).cfg = s.cfg := (rfl)
@[simp] theorem State.withArch_torn : (s.withArch bank x y).torn = s.torn := (rfl)

/-- A response from memory, be it computed or drawn, does not look at the architectural state. -/
theorem State.respondRead_withArch (width : Nat) (v : Word) :
    (s.withArch bank x y).respondRead width v = (s.respondRead width v).withArch bank x y := by
  unfold State.respondRead
  rw [State.withArch_torn]
  split <;> rfl

/-- Nor does a use of memory. -/
theorem readWindow_withArch (lo n width : Nat) (f : List Byte → Word) :
    readWindow (s.withArch bank x y) lo n width f = mapNext (State.withArch bank x y) (readWindow s lo n width f) := by
  unfold readWindow
  rw [State.withArch_cfg, State.withArch_mem]
  split
  · rfl
  · split
    · rfl
    · rw [State.respondRead_withArch]; rfl

variable {bank x y s} in
/-- A test that fails the command does not either, if the rest of the command does not. -/
theorem ite_raise_withArch {b : Bool} {st : Status} {out out' : Host.Outcome State Fault Refusal}
    (h : out' = mapNext (State.withArch bank x y) out) :
    (if b = true then .next ((s.withArch bank x y).raise st) else out')
      = mapNext (State.withArch bank x y) (if b = true then .next (s.raise st) else out) := by
  cases b
  · exact h
  · rfl

/-- A pure command does the same whatever the bank and the seeds hold, and hands them on. -/
theorem exec_withArch {i : Instr} (h : PureCommand i) :
    exec i (s.withArch bank x y) = mapNext (State.withArch bank x y) (exec i s) := by
  obtain rfl | ⟨l, r, rfl⟩ | ⟨a, n, o, rfl⟩ | ⟨a, n, o, rfl⟩ | ⟨a, n, rfl⟩ | ⟨a, n, d, rfl⟩ | ⟨a, n, d, rfl⟩ |
    ⟨d, rfl⟩ := h
  · rfl
  · rfl
  · exact ite_raise_withArch (ite_raise_withArch (readWindow_withArch ..))
  · exact ite_raise_withArch (ite_raise_withArch (readWindow_withArch ..))
  · exact ite_raise_withArch (ite_raise_withArch (readWindow_withArch ..))
  · exact ite_raise_withArch (readWindow_withArch ..)
  · exact ite_raise_withArch (readWindow_withArch ..)
  · rfl

/-- Settles O39.  That nothing is written is the case in which the bank and the seeds are put to what they are. -/
theorem pureCommandsIgnoreArchitecturalState : Obligations.PureCommandsIgnoreArchitecturalState := by
  unfold Obligations.PureCommandsIgnoreArchitecturalState
  intro i s bank x y hi
  have hany := exec_withArch bank x y s hi
  constructor
  · intro t ht
    have hown : exec i s = mapNext (State.withArch s.secret s.xseed s.sseed) (exec i s) :=
      exec_withArch s.secret s.xseed s.sseed s hi
    rw [ht] at hown hany
    have hkept : t = t.withArch s.secret s.xseed s.sseed := Host.Outcome.next.inj hown
    rw [hkept]
    exact ⟨rfl, rfl, rfl, hany⟩
  · intro why hwhy
    rw [hwhy] at hany
    exact hany

end Sys2Proof.Machine
end

section
/-! # The frame of a step (R27, R49, R193) -/

namespace Sys2Proof.Machine

/-- The arbiter's turn writes neither the parameters nor memory nor the turns to come, and sends one response at
most. -/
theorem arbiterTurn_frame {s t : State} (h : arbiterTurn s = .next t) :
    t.cfg = s.cfg ∧ t.mem = s.mem ∧ t.agenda = s.agenda ∧ (t.sent = s.sent ∨ ∃ d, t.sent = s.sent ++ [d]) := by
  obtain ⟨-, rfl⟩ | ⟨r, others, u, -, hu, rfl⟩ := arbiterTurn_next h
  · exact ⟨rfl, rfl, rfl, .inl rfl⟩
  · obtain ⟨bank, x, y, d, st, v, rfl⟩ := execPacket_next hu
    exact ⟨by simp, by simp, by simp, .inr ⟨_, State.finish_sent (answering_answer ..) r.port⟩⟩

/-- Settles O50, turn by turn. -/
theorem stepFrame : Obligations.StepFrame := by
  unfold Obligations.StepFrame
  intro s t hwf ht
  obtain ⟨rest, ha, harb⟩ | ⟨p, beats, rest, ha, -, rfl⟩ | ⟨addr, cell, rest, ha, rfl⟩ | ⟨rest, ha, -, rfl⟩ :=
    step_cases ht
  · obtain ⟨hcfg, hmem, hagenda, hsent⟩ := arbiterTurn_frame harb
    refine ⟨hcfg, fun a => .inl (by rw [hmem]), hsent, ?_⟩
    obtain ⟨ha, rfl⟩ | ha := ha <;> rw [ha, hagenda] <;> rfl
  · exact ⟨by simp, fun a => .inl (by simp), .inl (by simp), by simp [ha]⟩
  · refine ⟨rfl, fun a => ?_, .inl rfl, by rw [ha]; rfl⟩
    by_cases haddr : a = addr.toNat
    · exact .inr ⟨addr, cell, rest, ha, haddr, by rw [haddr]; exact memRead_memSet_same _ cell hwf⟩
    · exact .inl (memRead_memSet_other s.mem cell haddr)
  · exact ⟨rfl, fun a => .inl rfl, .inl rfl, by rw [ha]; rfl⟩

end Sys2Proof.Machine
end

section
/-! # HASH64 with the bank at its reset value (R24) -/

namespace Sys2Proof.Machine

/-- Settles O23: the two commands differ in the secret they take, and here that is the same. -/
theorem hash64WithResetBankIsDefaultHash : Obligations.Hash64WithResetBankIsDefaultHash := by
  unfold Obligations.Hash64WithResetBankIsDefaultHash
  intro addr len seed s h
  simp only [exec, execHash64, execHash64d, h]

end Sys2Proof.Machine
end

section
/-! # The frame of a command (R20, R49) and the shared seed over a sequence (R54) -/

namespace Sys2Proof.Machine

/-! ## Who writes which register -/

/-- The bank is written by SETSEC alone. -/
theorem archEffect_secret {i : Instr} (h : ∀ idx v, i ≠ .setsec idx v) (s : State) :
    (archEffect i s).secret = s.secret := by
  cases i with
  | setsec idx v => exact absurd rfl (h idx v)
  | _ => rfl

/-- Whatever its index, SETSEC puts no more than some bank in the place of the bank. -/
theorem archEffect_setsec (idx : BitVec 3) (v : Word) (s : State) :
    ∃ bank, archEffect (.setsec idx v) s = s.setSecret bank := by
  simp only [archEffect]
  cases secretSet s.secret idx v with
  | none => exact ⟨s.secret, rfl⟩
  | some bank => exact ⟨bank, rfl⟩

/-- XSEED is written by XCREATE and XNEXT alone. -/
theorem archEffect_xseed {i : Instr} (hcreate : ∀ a, i ≠ .xcreate a) (hnext : i ≠ .xnext) (s : State) :
    (archEffect i s).xseed = s.xseed := by
  cases i with
  | xcreate a => exact absurd rfl (hcreate a)
  | xnext => exact absurd rfl hnext
  | setsec idx v =>
    obtain ⟨bank, hbank⟩ := archEffect_setsec idx v s
    rw [hbank, State.setSecret_xseed]
  | _ => rfl

/-- SSEED is written by SCREATE and SNEXT alone. -/
theorem archEffect_sseed {i : Instr} (hcreate : ∀ a, i ≠ .screate a) (hnext : i ≠ .snext) (s : State) :
    (archEffect i s).sseed = s.sseed := by
  cases i with
  | screate a => exact absurd rfl (hcreate a)
  | snext => exact absurd rfl hnext
  | setsec idx v =>
    obtain ⟨bank, hbank⟩ := archEffect_setsec idx v s
    rw [hbank, State.setSecret_sseed]
  | _ => rfl

/-- The three registers hold afterwards what they held, or what the command's effect puts there. -/
theorem exec_next_arch {i : Instr} {s t : State} (h : exec i s = .next t) :
    (t.secret = s.secret ∧ t.xseed = s.xseed ∧ t.sseed = s.sseed) ∨
    (t.secret = (archEffect i s).secret ∧ t.xseed = (archEffect i s).xseed ∧
      t.sseed = (archEffect i s).sseed) := by
  cases exec_ends i s with
  | refused hr => rw [h] at hr; cases hr
  | failed st _ hf =>
    obtain rfl := Host.Outcome.next.inj (h.symm.trans hf)
    exact .inl ⟨rfl, rfl, rfl⟩
  | succeeded u v d hu ho =>
    obtain rfl := Host.Outcome.next.inj (h.symm.trans ho)
    rw [hu]
    exact .inr ⟨rfl, rfl, rfl⟩

/-- Settles O38: the registers by who writes them, the rest by what a command can change at all. -/
theorem commandFrame : Obligations.CommandFrame := by
  unfold Obligations.CommandFrame
  intro i s t h
  have hrest : (∀ a, memRead t.mem a = memRead s.mem a) ∧ t.mem = s.mem ∧ t.cfg = s.cfg ∧
      t.inFlight = s.inFlight ∧ t.held = s.held ∧ t.torn = s.torn ∧ t.sent = s.sent ∧ t.agenda = s.agenda := by
    obtain ⟨_, _, _, _, _, _, rfl⟩ := exec_next h
    simp
  obtain ⟨hsecret, hxseed, hsseed⟩ | ⟨hsecret, hxseed, hsseed⟩ := exec_next_arch h
  · exact ⟨fun _ => hsecret, fun _ _ => hxseed, fun _ _ => hsseed, hrest⟩
  · exact ⟨fun hi => hsecret.trans (archEffect_secret hi s),
      fun hc hn => hxseed.trans (archEffect_xseed hc hn s),
      fun hc hn => hsseed.trans (archEffect_sseed hc hn s), hrest⟩

/-! ## The shared seed -/

/-- A command that is not SCREATE moves SSEED by `PRNG_MOD` if it is SNEXT and not at all otherwise. -/
theorem exec_next_sseed {i : Instr} {s t : State} (hi : ∀ a, i ≠ .screate a) (h : exec i s = .next t) :
    t.sseed = s.sseed + BitVec.ofNat 64 ([i].count .snext) * prngMod s.cfg := by
  by_cases hn : i = .snext
  · subst hn
    obtain rfl := Host.Outcome.next.inj ((exec_snext s).symm.trans h)
    simp
  · obtain ⟨-, -, hsseed, -⟩ := commandFrame i s t h
    rw [hsseed hi hn]
    simp [hn]

/-- Settles O35, by induction on the sequence: each command adds its share. -/
theorem sharedSeedAdvancesOncePerSnext : Obligations.SharedSeedAdvancesOncePerSnext := by
  unfold Obligations.SharedSeedAdvancesOncePerSnext
  intro cs
  induction cs with
  | nil =>
    intro s t _ h
    obtain rfl := Host.Outcome.next.inj h
    simp
  | cons i rest ih =>
    intro s t hcs h
    obtain ⟨u, hu, hrest⟩ := execAll_cons_next h
    obtain ⟨-, -, -, -, -, hcfg, -⟩ := commandFrame i s u hu
    have hhead := exec_next_sseed (fun a ha => hcs a (by simp [ha])) hu
    have htail := ih u t (fun a ha => hcs a (List.mem_cons_of_mem i ha)) hrest
    rw [hcfg] at htail
    have hcount : (i :: rest).count .snext = [i].count .snext + rest.count .snext := List.count_append (l₁ := [i])
    rw [htail, hhead, hcount, BitVec.ofNat_add, BitVec.add_mul, BitVec.add_assoc]

end Sys2Proof.Machine
end

section
/-! # Reads of two widths at one offset (R43) -/

namespace Sys2Proof.Machine

/-- A read of `m + n` bytes is the read of the lower `m` below the read of the upper `n`. -/
theorem readLE_add (w : Nat) (buf : List Byte) (m n o : Nat) :
    readLE w buf o (m + n) = readLE w buf o m ||| readLE w buf (o + m) n <<< (8 * m) := by
  induction m generalizing o with
  | zero => simp [readLE]
  | succ m ih =>
    rw [Nat.add_right_comm, readLE_succ, ih, readLE_succ, BitVec.shiftLeft_or_distrib, ← BitVec.shiftLeft_add,
      BitVec.or_assoc]
    rw [Nat.add_right_comm o 1 m, Nat.mul_succ]
    rfl

/-- A read into fewer bits is the read into more bits, cut. -/
theorem setWidth_readLE {v w : Nat} (h : v ≤ w) (buf : List Byte) (n o : Nat) :
    (readLE w buf o n).setWidth v = readLE v buf o n := by
  induction n generalizing o with
  | zero => simp [readLE]
  | succ n ih =>
    rw [readLE_succ, readLE_succ, BitVec.setWidth_or, BitVec.setWidth_setWidth_of_le _ h,
      BitVec.setWidth_shiftLeft_of_le h, ih]

/-- Settles O10: of eight bytes read into 32 bits the upper four are shifted out. -/
theorem mixedWidthReadsAgree : Obligations.MixedWidthReadsAgree := by
  unfold Obligations.MixedWidthReadsAgree
  intro buf o
  calc rd32 buf o
      = readLE 32 buf o 4 ||| readLE 32 buf (o + 4) 4 <<< (8 * 4) := by simp [rd32]
    _ = readLE 32 buf o 8 := (readLE_add 32 buf 4 4 o).symm
    _ = (rd64 buf o).setWidth 32 := (setWidth_readLE (by omega) buf 8 o).symm

end Sys2Proof.Machine
end

section
/-! # The read set of a command (R47, R48) -/

namespace Sys2Proof.Machine

/-! ## Addresses of a read set -/

theorem inReadSet_iff (i : Instr) (a : Nat) :
    inReadSet i a = true ↔ (readSet i).1 ≤ a ∧ a < (readSet i).1 + (readSet i).2 := by
  simp [inReadSet]

/-- An empty read set holds no address. -/
theorem inReadSet_of_empty {i : Instr} (h : (readSet i).2 = 0) (a : Nat) : inReadSet i a = false := by
  rw [← Bool.not_eq_true, inReadSet_iff]
  omega

theorem hashWindow_of_fits {addr len : Word} (h : addr.toNat + len.toNat ≤ 2 ^ 64) :
    hashWindow addr len = (addr.toNat, len.toNat) := by
  simp [hashWindow, (rangeFails_eq_false addr len).2 h]

theorem readerWindow_of_fits {addr len off : Word} {n : Nat} (h : addr.toNat + len.toNat ≤ 2 ^ 64)
    (hoff : off.toNat + n ≤ len.toNat) : readerWindow addr len off n = (addr.toNat + off.toNat, n) := by
  simp [readerWindow, (rangeFails_eq_false addr len).2 h, (boundsFails_eq_false len off n).2 hoff]

theorem tailWindow_of_fits {addr len : Word} (h : addr.toNat + len.toNat ≤ 2 ^ 64) (hlo : 1 ≤ len.toNat)
    (hhi : len.toNat ≤ 3) : tailWindow addr len = (addr.toNat, len.toNat) := by
  simp [tailWindow, (rangeFails_eq_false addr len).2 h, (tailFails_eq_false len).2 ⟨hlo, hhi⟩]

/-! ## Side effects -/

/-- An empty range has no read side effects. -/
theorem touchesSideEffect_zero (cfg : Config) (lo : Nat) : touchesSideEffect cfg lo 0 = false := by
  simp [touchesSideEffect, regionTouched_zero]

/-- A read set has read side effects when one of its addresses lies in a region. -/
theorem touchesSideEffect_readSet_iff (cfg : Config) (i : Instr) :
    touchesSideEffect cfg (readSet i).1 (readSet i).2 = true ↔
      ∃ a r, inReadSet i a = true ∧ r ∈ cfg.sideEffectRegions ∧ r.base ≤ a ∧ a < r.base + r.size := by
  simp only [touchesSideEffect, List.any_eq_true, regionTouched_iff, inReadSet_iff]
  constructor
  · rintro ⟨r, hr, a, hlo, hhi, hbase, hend⟩
    exact ⟨a, r, ⟨hlo, hhi⟩, hr, hbase, hend⟩
  · rintro ⟨a, r, ⟨hlo, hhi⟩, hr, hbase, hend⟩
    exact ⟨r, hr, a, hlo, hhi, hbase, hend⟩

/-- A use of memory is refused for read side effects and for nothing else. -/
theorem readWindow_refused_iff (s : State) (lo n width : Nat) (f : List Byte → Word) :
    readWindow s lo n width f = .refused .sideEffectRead ↔ touchesSideEffect s.cfg lo n = true := by
  refine ⟨fun h => ?_, fun h => readWindow_refused h width f⟩
  by_contra hno
  unfold readWindow at h
  rw [if_neg hno] at h
  split at h <;> cases h

/-- A command is refused for the read side effects of its read set. -/
theorem exec_refused_iff (i : Instr) (s : State) :
    exec i s = .refused .sideEffectRead ↔ touchesSideEffect s.cfg (readSet i).1 (readSet i).2 = true := by
  cases exec_reads i with
  | nothing hempty hgo =>
    obtain ⟨t, ht, -⟩ := hgo s s.mem s.torn
    simp [ht, hempty, touchesSideEffect_zero]
  | window f hf => rw [hf, readWindow_refused_iff]

/-- Settles O44: both sides say that the read set touches a region with read side effects. -/
theorem sideEffectMemoryIsRefused : Obligations.SideEffectMemoryIsRefused := by
  unfold Obligations.SideEffectMemoryIsRefused
  intro i s
  refine ⟨(touchesSideEffect_readSet_iff s.cfg i).symm.trans (exec_refused_iff i s).symm, ?_⟩
  obtain hrefused | ⟨_, _, _, _, _, _, hnext⟩ := exec_answers i s
  · exact .inr hrefused
  · exact .inl ⟨_, hnext⟩

/-! ## Memory outside the read set -/

/-- `s` with another memory. -/
def State.withMem (m : Memory) (s : State) : State := { s with mem := m }

@[simp] theorem State.withMem_mem (m : Memory) (s : State) : (s.withMem m).mem = m := (rfl)
@[simp] theorem State.withMem_cfg (m : Memory) (s : State) : (s.withMem m).cfg = s.cfg := (rfl)
@[simp] theorem State.withMem_torn (m : Memory) (s : State) : (s.withMem m).torn = s.torn := (rfl)

/-- A response does not look at memory, be it computed or drawn. -/
theorem State.respondRead_withMem (m : Memory) (s : State) (width : Nat) (v : Word) :
    (s.withMem m).respondRead width v = (s.respondRead width v).withMem m := by
  unfold State.respondRead
  rw [State.withMem_torn]
  split <;> rfl

/-- A use of memory ends the same way with every memory that reads the same over its window. -/
theorem readWindow_withMem {m : Memory} {s : State} {lo n : Nat}
    (h : ∀ k < n, memRead m (lo + k) = memRead s.mem (lo + k)) (width : Nat) (f : List Byte → Word) :
    readWindow (s.withMem m) lo n width f = mapNext (State.withMem m) (readWindow s lo n width f) := by
  unfold readWindow
  rw [State.withMem_cfg, State.withMem_mem, readBytes_congr h]
  split
  · rfl
  · split
    · rfl
    · rw [State.respondRead_withMem]; rfl

/-- A command ends the same way with every memory that reads the same over its read set. -/
theorem exec_withMem {i : Instr} {m : Memory} {s : State}
    (h : ∀ a, inReadSet i a = true → memRead m a = memRead s.mem a) :
    exec i (s.withMem m) = mapNext (State.withMem m) (exec i s) := by
  cases exec_reads i with
  | nothing _ hgo =>
    obtain ⟨t, ht, ht'⟩ := hgo s m s.torn
    obtain ⟨-, -, -, -, -, -, -, -, htorn, -⟩ := commandFrame i s t ht
    have hkept : ({ t with mem := m, torn := s.torn } : State) = t.withMem m := by rw [← htorn]; rfl
    rw [ht]
    exact ht'.trans (congrArg _ hkept)
  | window f hf =>
    rw [hf, hf]
    exact readWindow_withMem (fun k hk => h _ ((inReadSet_iff i _).2 ⟨by omega, by omega⟩)) _ _

/-- A `BusFault` at one byte of a read set without side effects is answered BUS. -/
theorem exec_bus {i : Instr} {s : State} {a : Nat} (ha : inReadSet i a = true) (hfault : memRead s.mem a = none)
    (hquiet : touchesSideEffect s.cfg (readSet i).1 (readSet i).2 = false) :
    exec i s = .next (answering s .bus 0) := by
  cases exec_reads i with
  | nothing hempty _ => simp [inReadSet_of_empty hempty] at ha
  | window f hf =>
    obtain ⟨hlo, hhi⟩ := (inReadSet_iff i a).1 ha
    rw [hf]
    refine readWindow_bus hquiet ⟨a - (readSet i).1, by omega, ?_⟩ _ _
    rwa [Nat.add_sub_cancel' hlo]

/-- Settles O43: dependence on the read set, a `BusFault` in it, then its rows. -/
theorem readSetIsExact : Obligations.ReadSetIsExact := by
  unfold Obligations.ReadSetIsExact
  refine ⟨fun i s m hagree => ?_, fun i s a => exec_bus, fun addr len x a hfits => ?_, fun i a hi => ?_⟩
  · have hm := exec_withMem hagree
    exact ⟨fun t ht => by rw [ht] at hm; exact hm, fun why hwhy => by rw [hwhy] at hm; exact hm⟩
  · simp only [inReadSet_iff, readSet, hashWindow_of_fits hfits, true_and]
    refine ⟨fun hoff => ?_, fun hoff => ?_, fun hlo hhi => ?_⟩
    · rw [readerWindow_of_fits hfits hoff]
    · rw [readerWindow_of_fits hfits hoff]
    · rw [tailWindow_of_fits hfits hlo hhi]
  · refine inReadSet_of_empty ?_ a
    obtain rfl | ⟨l, r, rfl⟩ | ⟨d, rfl⟩ | ⟨d, rfl⟩ | rfl | rfl | ⟨d, rfl⟩ | rfl | rfl | ⟨x, v, rfl⟩ | ⟨x, rfl⟩ := hi
      <;> rfl

end Sys2Proof.Machine
end

section
/-! # A write by another agent (R52, R204) -/

namespace Sys2Proof.Machine

/-- The platform's turn, as the next of the agenda. -/
theorem step_platform {s : State} {addr : Word} {cell : Option Byte} {rest : List Turn}
    (h : s.agenda = .platform addr cell :: rest) :
    step s = .next { s with
      agenda := rest, mem := memSet s.mem addr.toNat cell, inFlight := s.inFlight.map (tearBy addr.toNat) } := by
  unfold step
  rw [h]
  rfl

/-- Settles O56: memory by read after write, the requests by what tearing does to each. -/
theorem platformWriteIsVisible : Obligations.PlatformWriteIsVisible := by
  unfold Obligations.PlatformWriteIsVisible
  intro s addr cell rest hwf hagenda
  refine ⟨_, step_platform hagenda, memSet_wf hwf _ cell addr.isLt, memRead_memSet_same _ cell hwf,
    fun a ha => memRead_memSet_other s.mem cell ha, rfl, rfl, rfl, rfl, List.length_map _, fun k r hk => ?_⟩
  obtain ⟨b, hb, hiff⟩ := tearBy_eq addr.toNat r
  exact ⟨b, by rw [List.getElem?_map, hk, Option.map_some, hb], hiff⟩

end Sys2Proof.Machine
end

section
/-! # Headers, field by field and row by row (R61, R65, R66)

`decodeHeader_eq_ok_iff` says once which headers decode: the encoder's, for a row and an index that the row allows.
Both round trips, the ILLEGAL causes and the match and mask columns are read off it. -/

namespace Sys2Proof

/-! ## Fields as numbers -/

theorem headerOpc_toNat (h : Half) : (headerOpc h).toNat = h.toNat % 2 ^ 8 := by
  simp [headerOpc, BitVec.extractLsb'_toNat]

theorem headerIdx_toNat (h : Half) : (headerIdx h).toNat = h.toNat / 2 ^ 8 % 8 := by
  simp [headerIdx, BitVec.extractLsb'_toNat, Nat.shiftRight_eq_div_pow]

theorem headerRsv11_toNat (h : Half) : (headerRsv11 h).toNat = h.toNat / 2 ^ 11 % 2 := by
  simp [headerRsv11, BitVec.extractLsb'_toNat, Nat.shiftRight_eq_div_pow]

theorem headerNops_toNat (h : Half) : (headerNops h).toNat = h.toNat / 2 ^ 12 % 4 := by
  simp [headerNops, BitVec.extractLsb'_toNat, Nat.shiftRight_eq_div_pow]

/-- Bits 31:14 are the top of the word. -/
theorem headerRsv_toNat (h : Half) : (headerRsv h).toNat = h.toNat / 2 ^ 14 := by
  have := h.isLt
  simp only [headerRsv, BitVec.extractLsb'_toNat, Nat.shiftRight_eq_div_pow]
  omega

/-! ## Rows -/

/-- A row is known by its opcode byte. -/
theorem opcodeByte_injective {op op' : Opcode} (h : opcodeByte op = opcodeByte op') : op = op' := by
  simpa [opcodeOfByte_opcodeByte] using congrArg opcodeOfByte h

/-- A byte that is no row's finds none. -/
theorem opcodeOfByte_eq_none {b : BitVec 8} (h : ∀ op, opcodeByte op ≠ b) : opcodeOfByte b = none :=
  Option.eq_none_iff_forall_ne_some.2 fun op hop => h op (opcodeByte_of_opcodeOfByte hop)

/-- The rows that use `IDX` are SETSEC and GETSEC. -/
theorem formatIndexed_iff (op : Opcode) :
    formatIndexed (opcodeFormat op) = true ↔ op = .setsec ∨ op = .getsec := by
  cases op <;> decide

/-- The indexes with which a row is legal (R66): 0 to 4 where it uses `IDX`, and 0 where it does not. -/
def indexAllowed (op : Opcode) (idx : BitVec 3) : Bool :=
  if formatIndexed (opcodeFormat op) then legalIndex idx else idx == 0

/-- No row allows an index above 4. -/
theorem toNat_le_of_indexAllowed {op : Opcode} {idx : BitVec 3} (h : indexAllowed op idx = true) : idx.toNat ≤ 4 := by
  unfold indexAllowed at h
  split at h
  · exact of_decide_eq_true h
  · simp [eq_of_beq h]

/-- A row other than SETSEC and GETSEC allows the index 0 alone. -/
theorem eq_zero_of_indexAllowed {op : Opcode} {idx : BitVec 3} (h : indexAllowed op idx = true)
    (hop : formatIndexed (opcodeFormat op) = false) : idx = 0 := by
  simpa [indexAllowed, hop] using h

/-! ## The decode procedure, outcome by outcome -/

/-- Step 1: a reserved bit is set. -/
theorem decodeHeader_of_reservedBits {h : Half} (hrsv : headerRsv h ≠ 0 ∨ headerRsv11 h ≠ 0) :
    decodeHeader h = .error .reservedBits := if_pos hrsv

/-- Step 2: the opcode names no row. -/
theorem decodeHeader_of_reservedOpcode {h : Half} (hrsv : headerRsv h = 0) (hrsv11 : headerRsv11 h = 0)
    (hop : ∀ op, opcodeByte op ≠ headerOpc h) : decodeHeader h = .error .reservedOpcode := by
  simp [decodeHeader, hrsv, hrsv11, opcodeOfByte_eq_none hop]

/-- The later steps, for the row that the opcode names: the operand count, then the index. -/
theorem decodeHeader_of_row {h : Half} {op : Opcode} (hrsv : headerRsv h = 0) (hrsv11 : headerRsv11 h = 0)
    (hop : opcodeByte op = headerOpc h) :
    decodeHeader h =
      if headerNops h ≠ formatNops (opcodeFormat op) then .error .operandCount
      else if formatIndexed (opcodeFormat op) then
        if legalIndex (headerIdx h) then .ok (op, headerIdx h) else .error .secretIndex
      else if headerIdx h ≠ 0 then .error .idxOnNonIndexed
      else .ok (op, headerIdx h) := by
  simp [decodeHeader, hrsv, hrsv11, ← hop, opcodeOfByte_opcodeByte]

/-- A header without reserved bits, with a row's opcode byte and operand count, is the encoder's for that row. -/
theorem eq_encodeHeader_of_fields {h : Half} {op : Opcode} (hrsv : headerRsv h = 0) (hrsv11 : headerRsv11 h = 0)
    (hop : opcodeByte op = headerOpc h) (hnops : headerNops h = formatNops (opcodeFormat op)) :
    h = encodeHeader op (headerIdx h) := by
  obtain ⟨hrsv', hrsv11'⟩ := headerRsv_encodeHeader op (headerIdx h)
  exact header_ext (by rw [headerOpc_encodeHeader, hop]) (headerIdx_encodeHeader op _).symm
    (hrsv11.trans hrsv11'.symm) (by rw [headerNops_encodeHeader, hnops]) (hrsv.trans hrsv'.symm)

/-- The headers that decode are the encoder's, with an index that the row allows. -/
theorem decodeHeader_eq_ok_iff {h : Half} {op : Opcode} {idx : BitVec 3} :
    decodeHeader h = .ok (op, idx) ↔ h = encodeHeader op idx ∧ indexAllowed op idx = true := by
  constructor
  · intro hd
    by_cases hrsv : headerRsv h ≠ 0 ∨ headerRsv11 h ≠ 0
    · rw [decodeHeader_of_reservedBits hrsv] at hd; cases hd
    obtain ⟨hrsv, hrsv11⟩ : headerRsv h = 0 ∧ headerRsv11 h = 0 := by simpa using hrsv
    by_cases hrow : ∃ op', opcodeByte op' = headerOpc h
    · obtain ⟨op', hop⟩ := hrow
      rw [decodeHeader_of_row hrsv hrsv11 hop] at hd
      split_ifs at hd with hnops hindexed hidx hidx <;> cases hd
      -- What is left are the two successes, with and without an index.
      all_goals refine ⟨eq_encodeHeader_of_fields hrsv hrsv11 hop (not_not.1 hnops), ?_⟩
      · rwa [indexAllowed, if_pos hindexed]
      · rw [indexAllowed, if_neg hindexed]; exact beq_iff_eq.2 (not_not.1 hidx)
    · rw [decodeHeader_of_reservedOpcode hrsv hrsv11 (not_exists.1 hrow)] at hd; cases hd
  · rintro ⟨rfl, hidx⟩
    obtain ⟨hrsv, hrsv11⟩ := headerRsv_encodeHeader op idx
    rw [decodeHeader_of_row hrsv hrsv11 (headerOpc_encodeHeader op idx).symm, headerNops_encodeHeader,
      headerIdx_encodeHeader]
    cases hindexed : formatIndexed (opcodeFormat op) <;> simpa [indexAllowed, hindexed] using hidx

/-! ## The match and mask columns -/

/-- A field that the mask leaves whole has the value it has in the match column. -/
theorem extractLsb'_of_and {h mask m : Half} {start len : Nat} (hm : h &&& mask = m)
    (hmask : mask.extractLsb' start len = BitVec.allOnes len) :
    h.extractLsb' start len = m.extractLsb' start len := by
  rw [← hm, BitVec.extractLsb'_and, hmask, BitVec.and_allOnes]

/-- The mask leaves every field whole but the index of SETSEC and GETSEC. -/
theorem headerFields_opcodeMask (op : Opcode) :
    headerOpc (opcodeMask op) = .allOnes 8 ∧ headerRsv11 (opcodeMask op) = .allOnes 1 ∧
    headerNops (opcodeMask op) = .allOnes 2 ∧ headerRsv (opcodeMask op) = .allOnes 18 ∧
    (formatIndexed (opcodeFormat op) = false → headerIdx (opcodeMask op) = .allOnes 3) := by
  cases op <;> decide

/-- A header matches a row exactly when it is the encoder's for that row, with index 0 where the row has none. -/
theorem and_opcodeMask_eq_iff {h : Half} {op : Opcode} :
    h &&& opcodeMask op = opcodeMatch op ↔
      ∃ idx, h = encodeHeader op idx ∧ (formatIndexed (opcodeFormat op) = false → idx = 0) := by
  constructor
  · intro hm
    rw [← encodeHeader_zero op] at hm
    obtain ⟨hopc, hrsv11, hnops, hrsv, hidx⟩ := headerFields_opcodeMask op
    obtain ⟨hrsv', hrsv11'⟩ := headerRsv_encodeHeader op 0
    refine ⟨headerIdx h, eq_encodeHeader_of_fields ?_ ?_ ?_ ?_, fun hplain => ?_⟩
    · exact (extractLsb'_of_and hm hrsv).trans hrsv'
    · exact (extractLsb'_of_and hm hrsv11).trans hrsv11'
    · exact ((extractLsb'_of_and hm hopc).trans (headerOpc_encodeHeader op 0)).symm
    · exact (extractLsb'_of_and hm hnops).trans (headerNops_encodeHeader op 0)
    · exact (extractLsb'_of_and hm (hidx hplain)).trans (headerIdx_encodeHeader op 0)
  · rintro ⟨idx, rfl, hidx⟩
    revert idx
    cases op <;> decide

/-- A header that matches a row, with a legal index if the row has one, decodes to that row. -/
theorem decodeHeader_of_match {h : Half} {op : Opcode} (hm : h &&& opcodeMask op = opcodeMatch op)
    (hidx : op = .setsec ∨ op = .getsec → (headerIdx h).toNat ≤ 4) : decodeHeader h = .ok (op, headerIdx h) := by
  obtain ⟨idx, rfl, hplain⟩ := and_opcodeMask_eq_iff.1 hm
  rw [headerIdx_encodeHeader] at hidx ⊢
  refine decodeHeader_eq_ok_iff.2 ⟨rfl, ?_⟩
  cases hindexed : formatIndexed (opcodeFormat op) with
  | false => simp [indexAllowed, hindexed, hplain hindexed]
  | true => simpa [indexAllowed, hindexed, legalIndex] using hidx ((formatIndexed_iff op).1 hindexed)

/-- A header that decodes matches the row it decodes to. -/
theorem match_of_decodeHeader {h : Half} {op : Opcode} {idx : BitVec 3} (hd : decodeHeader h = .ok (op, idx)) :
    h &&& opcodeMask op = opcodeMatch op := by
  obtain ⟨rfl, hidx⟩ := decodeHeader_eq_ok_iff.1 hd
  exact and_opcodeMask_eq_iff.2 ⟨idx, rfl, eq_zero_of_indexAllowed hidx⟩

/-- No header matches two rows. -/
theorem row_unique_of_match {h : Half} {op op' : Opcode} (hm : h &&& opcodeMask op = opcodeMatch op)
    (hm' : h &&& opcodeMask op' = opcodeMatch op') : op' = op := by
  obtain ⟨idx, rfl, -⟩ := and_opcodeMask_eq_iff.1 hm
  obtain ⟨idx', heq, -⟩ := and_opcodeMask_eq_iff.1 hm'
  apply opcodeByte_injective
  rw [← headerOpc_encodeHeader op' idx', ← heq, headerOpc_encodeHeader]

end Sys2Proof
end

section
/-! # The two round trips of the encoding (R64 to R67, R69) -/

namespace Sys2Proof.Machine

/-- A command is well-formed when its opcode allows its index. -/
theorem wellFormed_eq_indexAllowed (i : Instr) : i.wellFormed = indexAllowed (instrOpcode i) (instrIdx i) := by
  cases i <;> rfl

/-- Operand assembly gives a command back from its opcode, its index and its operands. -/
theorem assembleInstr_instrOperands (i : Instr) :
    assembleInstr (instrOpcode i) (instrIdx i) (instrOperands i) = some i := by
  cases i <;> rfl

theorem noOperand_eq_some {i j : Instr} {ops : List Word} (h : noOperand i ops = some j) : ops = [] ∧ i = j := by
  unfold noOperand at h
  split at h
  · exact ⟨rfl, Option.some.inj h⟩
  · cases h

theorem oneOperand_eq_some {f : Word → Instr} {j : Instr} {ops : List Word} (h : oneOperand f ops = some j) :
    ∃ a, ops = [a] ∧ f a = j := by
  unfold oneOperand at h
  split at h
  · exact ⟨_, rfl, Option.some.inj h⟩
  · cases h

theorem twoOperands_eq_some {f : Word → Word → Instr} {j : Instr} {ops : List Word}
    (h : twoOperands f ops = some j) : ∃ a b, ops = [a, b] ∧ f a b = j := by
  unfold twoOperands at h
  split at h
  · exact ⟨_, _, rfl, Option.some.inj h⟩
  · cases h

theorem threeOperands_eq_some {f : Word → Word → Word → Instr} {j : Instr} {ops : List Word}
    (h : threeOperands f ops = some j) : ∃ a b c, ops = [a, b, c] ∧ f a b c = j := by
  unfold threeOperands at h
  split at h
  · exact ⟨_, _, _, rfl, Option.some.inj h⟩
  · cases h

/-- Operand assembly makes a command of the given opcode and operands, and of the given index where that is legal. -/
theorem fields_of_assembleInstr {op : Opcode} {idx : BitVec 3} {ops : List Word} {i : Instr}
    (hidx : indexAllowed op idx = true) (h : assembleInstr op idx ops = some i) :
    instrOpcode i = op ∧ instrIdx i = idx ∧ instrOperands i = ops := by
  have hzero : formatIndexed (opcodeFormat op) = false → 0 = idx := fun hop =>
    (eq_zero_of_indexAllowed hidx hop).symm
  cases op with
  | setsec => obtain ⟨a, rfl, rfl⟩ := oneOperand_eq_some h; exact ⟨rfl, rfl, rfl⟩
  | getsec => obtain ⟨rfl, rfl⟩ := noOperand_eq_some h; exact ⟨rfl, rfl, rfl⟩
  | nop | xnext | xinto | snext | sinto =>
    obtain ⟨rfl, rfl⟩ := noOperand_eq_some h; exact ⟨rfl, hzero rfl, rfl⟩
  | random | xcreate | screate =>
    obtain ⟨a, rfl, rfl⟩ := oneOperand_eq_some h; exact ⟨rfl, hzero rfl, rfl⟩
  | mix | tail =>
    obtain ⟨a, b, rfl, rfl⟩ := twoOperands_eq_some h; exact ⟨rfl, hzero rfl, rfl⟩
  | read32 | read64 | hash64 | hash64d | hash32 =>
    obtain ⟨a, b, c, rfl, rfl⟩ := threeOperands_eq_some h; exact ⟨rfl, hzero rfl, rfl⟩

/-- A packet decodes to a command when its header gives an opcode and an index and these make the command of its
operands. -/
theorem decode_eq_ok_iff {p : Packet} {i : Instr} :
    decode p = .ok i ↔
      ∃ op idx, decodeHeader p.header = .ok (op, idx) ∧ assembleInstr op idx p.operands = some i := by
  constructor
  · intro h
    unfold decode at h
    split at h
    · cases h
    · rename_i op idx hheader
      split at h
      · rename_i j hj; cases h; exact ⟨op, idx, hheader, hj⟩
      · cases h
  · rintro ⟨op, idx, hheader, hinstr⟩
    simp only [decode, hheader, hinstr]

/-- Settles O3: the header decodes to the opcode and the index, and these with the operands make the command. -/
theorem decodeOfEncode : Obligations.DecodeOfEncode := by
  unfold Obligations.DecodeOfEncode
  intro i hwf
  rw [wellFormed_eq_indexAllowed] at hwf
  exact decode_eq_ok_iff.2 ⟨_, _, decodeHeader_eq_ok_iff.2 ⟨rfl, hwf⟩, assembleInstr_instrOperands i⟩

/-- Settles O4: header and operands of the packet are those of the command, each for itself. -/
theorem encodeOfDecode : Obligations.EncodeOfDecode := by
  unfold Obligations.EncodeOfDecode
  intro p i h
  obtain ⟨op, idx, hheader, hinstr⟩ := decode_eq_ok_iff.1 h
  obtain ⟨heq, hidx⟩ := decodeHeader_eq_ok_iff.1 hheader
  obtain ⟨rfl, rfl, hops⟩ := fields_of_assembleInstr hidx hinstr
  refine ⟨(wellFormed_eq_indexAllowed i).trans hidx, ?_⟩
  rw [encode, ← heq, hops]

end Sys2Proof.Machine
end

section
/-! # The decode procedure as R66 words it, and the requests it rejects (R66, R67, R182) -/

namespace Sys2Proof.Machine

/-- Settles O5: the rule's numbers are the header's fields; then outcome by outcome, and match against mask. -/
theorem headerDecodesByProcedure : Obligations.HeaderDecodesByProcedure := by
  unfold Obligations.HeaderDecodesByProcedure
  intro h
  have hval : BitVec.ofNat 3 (h.toNat / 2 ^ 8) = headerIdx h := by
    rw [← BitVec.toNat_inj, headerIdx_toNat, BitVec.toNat_ofNat]
  have hzero : ∀ {w : Nat} (x : BitVec w), x.toNat = 0 ↔ x = 0 := fun x => by
    rw [← BitVec.toNat_inj, BitVec.ofNat_eq_ofNat, BitVec.toNat_zero]
  simp only [hval, ← headerOpc_toNat, ← headerIdx_toNat, ← headerRsv11_toNat, ← headerNops_toNat, ← headerRsv_toNat,
    ne_eq, BitVec.toNat_inj, hzero]
  refine ⟨decodeHeader_of_reservedBits, fun hrsv hrsv11 =>
    ⟨decodeHeader_of_reservedOpcode hrsv hrsv11, fun op hop => ?row⟩, ?agreement⟩
  case row =>
    rw [decodeHeader_of_row hrsv hrsv11 hop]
    refine ⟨fun hnops => if_pos hnops, fun hnops => ?_⟩
    rw [if_neg (not_not.2 hnops)]
    refine ⟨fun hindexed => ?_, fun hplain => ?_⟩
    · rw [if_pos hindexed]
      exact ⟨fun hidx => if_neg (by simpa [legalIndex] using hidx),
        fun hidx => if_pos (by simpa [legalIndex] using hidx)⟩
    · rw [if_neg (by simp [hplain])]
      exact ⟨fun hidx => if_pos hidx, fun hidx => by rw [if_neg (not_not.2 hidx), hidx]⟩
  case agreement =>
    constructor
    · rintro ⟨⟨op, idx⟩, hd⟩
      obtain ⟨rfl, hidx⟩ := decodeHeader_eq_ok_iff.1 hd
      refine ⟨op, match_of_decodeHeader hd, fun op' => row_unique_of_match (match_of_decodeHeader hd), fun _ => ?_⟩
      rw [headerIdx_encodeHeader]
      exact toNat_le_of_indexAllowed hidx
    · rintro ⟨op, hm, -, hidx⟩
      exact ⟨_, decodeHeader_of_match hm hidx⟩

/-- A request whose header does not decode is answered ILLEGAL, and that is all. -/
theorem execPacket_of_illegal {p : Packet} {e : Illegal} (h : decodeHeader p.header = .error e) (s : State) :
    execPacket p s = .next (answering s .illegal 0) := by
  simp only [execPacket, decode, h, State.raise_eq]

/-- Settles O6: a header that decodes is the encoder's, which no cause of R67 fits. -/
theorem illegalRequestExecutesNothing : Obligations.IllegalRequestExecutesNothing := by
  unfold Obligations.IllegalRequestExecutesNothing
  refine ⟨by decide +kernel, fun p s hcause => ?_⟩
  cases hd : decodeHeader p.header with
  | error e => exact execPacket_of_illegal hd s
  | ok row =>
    exfalso
    obtain ⟨op, idx⟩ := row
    obtain ⟨hheader, hidx⟩ := decodeHeader_eq_ok_iff.1 hd
    obtain ⟨hrsv, hrsv11⟩ := headerRsv_encodeHeader op idx
    rw [hheader, hrsv, hrsv11, headerOpc_encodeHeader, headerNops_encodeHeader, headerIdx_encodeHeader] at hcause
    obtain hopc | hbits | hbit | ⟨op', hop', hfields⟩ := hcause
    · exact hopc op rfl
    · exact hbits rfl
    · exact hbit rfl
    · obtain rfl := opcodeByte_injective hop'
      obtain hnops | ⟨hset, hget, hne⟩ | hhigh := hfields
      · exact hnops rfl
      · have hplain : formatIndexed (opcodeFormat op') = false := by
          rw [← Bool.not_eq_true, formatIndexed_iff]
          exact not_or.2 ⟨hset, hget⟩
        exact hne (eq_zero_of_indexAllowed hidx hplain)
      · exact absurd (toNat_le_of_indexAllowed hidx) (Nat.not_le.2 hhigh)

end Sys2Proof.Machine
end

section
/-! # Framing, and words put on a port (R60, R62, R192) -/

namespace Sys2Proof.Machine

/-- A header on a port word is read back from its low lines. -/
theorem beatHeader_setWidth (h : Half) : beatHeader (h.setWidth 64) = h := by
  simp [beatHeader]

/-- The number of operand words, from the port word that carries the header. -/
theorem headerNops_beatHeader_toNat (b : Word) : (headerNops (beatHeader b)).toNat = b.toNat / 2 ^ 12 % 4 := by
  rw [headerNops_toNat, beatHeader, BitVec.toNat_setWidth]
  omega

/-- With fewer words behind the header than it announces there is no packet yet. -/
theorem frame_of_short {b : Word} {rest : List Word} (h : rest.length < (headerNops (beatHeader b)).toNat) :
    frame (b :: rest) = none := if_pos h

/-- The words of a whole packet are framed as that packet, whatever follows. -/
theorem frame_packetBeats {p : Packet} (h : packetFramed p) (rest : List Word) :
    frame (packetBeats p ++ rest) = some (p, rest) := by
  have hheader := beatHeader_setWidth p.header
  rw [packetBeats, List.cons_append, frame_append _ _ _ (by rwa [hheader]), hheader]

/-- Settles O7: too few words, enough of them, and a whole packet of a stream. -/
theorem portFramesByNopsAlone : Obligations.PortFramesByNopsAlone := by
  unfold Obligations.PortFramesByNopsAlone
  refine ⟨fun b rest hshort => ?_, fun b ops rest hops => ?_, fun p rest hp => frame_packetBeats hp rest⟩
  · exact frame_of_short (by rwa [headerNops_beatHeader_toNat])
  · exact frame_append b ops rest (by rwa [headerNops_beatHeader_toNat])

/-- A busy port accepts nothing. -/
theorem State.accept_of_busy {s : State} {p : Nat} (h : portBusy p s.inFlight = true) : s.accept p = s := if_pos h

/-- A free port accepts the oldest whole packet it holds. -/
theorem State.accept_of_free {s : State} {p : Nat} {pkt : Packet} {rest : List Word}
    (hfree : portBusy p s.inFlight = false) (hframe : frame (portWords p s.held) = some (pkt, rest)) :
    s.accept p = { s with
      inFlight := s.inFlight ++ [⟨p, pkt, false, Config.arbiterWait s.draws⟩]
      held := dropWords p (1 + pkt.operands.length) s.held
      draws := s.draws + 1 } := by
  simp [State.accept, hfree, hframe]

/-- A requester's turn, as the next of the agenda. -/
theorem step_send {s : State} {p : Nat} {beats : List Word} {rest : List Turn}
    (h : s.agenda = .send p beats :: rest) :
    step s = if p < s.cfg.numPorts then
      .next ({ s with agenda := rest, held := s.held ++ beats.map (fun w => (p, w)) }.accept p)
    else .fault .noSuchPort := by
  unfold step
  rw [h]
  rfl

/-- Settles O52: the port then holds the packet's words and no others; it accepts them if it is free. -/
theorem sentPacketIsInFlight : Obligations.SentPacketIsInFlight := by
  unfold Obligations.SentPacketIsInFlight
  intro s p pkt rest hpkt hagenda
  have hstep := step_send hagenda
  refine ⟨fun hport hempty => ?_, fun hport => by rw [hstep, if_neg hport]⟩
  rw [if_pos hport] at hstep
  -- What the ports hold before `p` has had its chance to accept.
  have hwords : portWords p (s.held ++ (packetBeats pkt).map fun w => (p, w)) = packetBeats pkt := by
    rw [portWords_append, hempty, portWords_map_same, List.nil_append]
  have hothers : ∀ q, q ≠ p →
      portWords q (s.held ++ (packetBeats pkt).map fun w => (p, w)) = portWords q s.held := fun q hq => by
    rw [portWords_append, portWords_map_other hq, List.append_nil]
  refine ⟨fun hfree => ?_, fun hbusy => ?_⟩
  · have hframe := frame_packetBeats hpkt []
    rw [List.append_nil, ← hwords] at hframe
    rw [State.accept_of_free (by exact hfree) (by exact hframe)] at hstep
    refine ⟨_, _, hstep, rfl, ?_, fun q hq => ?_⟩
    · rw [portWords_dropWords_same, hwords]
      simp [packetBeats, Nat.add_comm]
    · rw [portWords_dropWords_other hq, hothers q hq]
  · rw [State.accept_of_busy (by exact hbusy)] at hstep
    exact ⟨_, hstep, rfl, hwords⟩

end Sys2Proof.Machine
end

section
/-! # Loading a secret (R70, R107, R206) -/

namespace Sys2Proof.Machine

/-- SETSEC of a register that exists writes it and answers. -/
theorem exec_setsec_of_legal {idx : BitVec 3} {v : Word} {s : State} {bank : SecretBank}
    (h : secretSet s.secret idx v = some bank) :
    exec (.setsec idx v) s = .next (answering { s with secret := bank } .ok 0) := by
  simp only [exec, execSetsec, h, State.respond_eq, State.setSecret]

/-- LDSECRET loads the five words, whatever the bank held, and the rest of a sequence goes on from there. -/
theorem execAll_ldsecret (v0 v1 v2 v3 v4 : Word) (more : List Instr) (s : State) :
    execAll (expandPseudo (.ldsecret v0 v1 v2 v3 v4) ++ more) s =
      execAll more (answering { s with secret := ⟨v0, v1, v2, v3, v4⟩ } .ok 0) := by
  simp only [expandPseudo, List.cons_append, List.nil_append]
  iterate 5 rw [execAll_cons (exec_setsec_of_legal rfl)]
  rfl

/-- HASH64 of a readable buffer answers the hash of its bytes under the bank. -/
theorem exec_hash64_of_readable {addr len : Word} {s : State} {buf : List Byte}
    (hrange : addr.toNat + len.toNat ≤ 2 ^ 64) (hquiet : touchesSideEffect s.cfg addr.toNat len.toNat = false)
    (hlen : buf.length = len.toNat) (hbuf : bytesAt s.mem addr.toNat buf) (htorn : s.torn = false) (seed : Word) :
    exec (.hash64 addr len seed) s = .next (answering s .ok (hash64Value buf len.toNat seed s.secret)) := by
  simp only [exec, execHash64]
  rw [if_neg (by simp [(rangeFails_eq_false addr len).2 hrange]), readWindow_ok hquiet hlen hbuf,
    State.respondRead_of_quiet htorn]

/-- The hash of the empty buffer. -/
theorem hash64Value_empty (buf : List Byte) (seed : Word) (sec : SecretBank) :
    hash64Value buf 0 seed sec = mix sec.w1 (mix sec.w0 seed) := by
  simp [hash64Value, hash64Blocks, hash64Steps, hash64Inner]

/-- HASH64 of a readable buffer, next after LDSECRET, answers the hash of its bytes under the loaded words. -/
theorem execAll_ldsecret_hash64 {addr len : Word} {s : State} {buf : List Byte}
    (hrange : addr.toNat + len.toNat ≤ 2 ^ 64) (hquiet : touchesSideEffect s.cfg addr.toNat len.toNat = false)
    (hlen : buf.length = len.toNat) (hbuf : bytesAt s.mem addr.toNat buf) (htorn : s.torn = false)
    (v0 v1 v2 v3 v4 seed : Word) :
    execAll (expandPseudo (.ldsecret v0 v1 v2 v3 v4) ++ [.hash64 addr len seed]) s =
      .next (answering { s with secret := ⟨v0, v1, v2, v3, v4⟩ } .ok
        (hash64Value buf len.toNat seed ⟨v0, v1, v2, v3, v4⟩)) := by
  rw [execAll_ldsecret]
  refine (execAll_cons (exec_hash64_of_readable hrange ?quiet hlen ?readable ?untorn seed)).trans (execAll_nil _)
  case quiet => exact hquiet
  case readable => exact hbuf
  case untorn => exact htorn

/-- Settles O60: LDSECRET leaves the five words in the bank, and HASH64 takes its secret from there; the empty buffer is
readable at every address. -/
theorem loadedSecretIsUsedAtOnce : Obligations.LoadedSecretIsUsedAtOnce := by
  unfold Obligations.LoadedSecretIsUsedAtOnce
  intro v0 v1 v2 v3 v4 addr len seed s htorn
  refine ⟨fun hrange hquiet buf hlen hbuf =>
    execAll_ldsecret_hash64 hrange hquiet hlen hbuf htorn v0 v1 v2 v3 v4 seed, ?_⟩
  rintro rfl
  have hempty := execAll_ldsecret_hash64 (len := 0) (buf := []) (by simpa using addr.isLt.le)
    (touchesSideEffect_zero s.cfg _) rfl (by simp [bytesAt]) htorn v0 v1 v2 v3 v4 seed
  rwa [show (0 : Word).toNat = 0 from rfl, hash64Value_empty] at hempty

end Sys2Proof.Machine
end

section
/-! # The worked encodings and the opcode map (R65, R71) -/

namespace Sys2Proof.Machine

/-- Settles O1: the assembler runs on each line; the two ILLEGAL headers by their reasons, and the first one's operands
by its `NOPS`. -/
theorem assemblerWorkedExamples : Obligations.AssemblerWorkedExamples := by
  unfold Obligations.AssemblerWorkedExamples
  refine ⟨by decide, by decide, by decide, by decide, by decide,
    by decide, by decide, ⟨.operandCount, by decide⟩, fun a b rest => ?_, ⟨.secretIndex, by decide⟩⟩
  exact frame_append 0x00002010 [a, b] rest rfl

/-- A packet from its header and its operands. -/
theorem decode_of_row (op : Opcode) (idx : BitVec 3) {h : Half} {ops : List Word} {i : Instr}
    (hheader : decodeHeader h = .ok (op, idx)) (hinstr : assembleInstr op idx ops = some i) :
    decode ⟨h, ops⟩ = .ok i := decode_eq_ok_iff.2 ⟨op, idx, hheader, hinstr⟩

/-- Settles O2, row by row: the header's fields are evaluated, the operands are taken as they stand. -/
theorem opcodeMapDecodes : Obligations.OpcodeMapDecodes := by
  unfold Obligations.OpcodeMapDecodes
  intro a b c
  exact ⟨decode_of_row .nop 0 (by decide) rfl, decode_of_row .mix 0 (by decide) rfl,
    decode_of_row .read32 0 (by decide) rfl, decode_of_row .read64 0 (by decide) rfl,
    decode_of_row .tail 0 (by decide) rfl, decode_of_row .hash64 0 (by decide) rfl,
    decode_of_row .hash64d 0 (by decide) rfl, decode_of_row .hash32 0 (by decide) rfl,
    decode_of_row .random 0 (by decide) rfl, decode_of_row .xcreate 0 (by decide) rfl,
    decode_of_row .xnext 0 (by decide) rfl, decode_of_row .xinto 0 (by decide) rfl,
    decode_of_row .screate 0 (by decide) rfl, decode_of_row .snext 0 (by decide) rfl,
    decode_of_row .sinto 0 (by decide) rfl, decode_of_row .setsec 0 (by decide) rfl,
    decode_of_row .setsec 4 (by decide) rfl, decode_of_row .getsec 0 (by decide) rfl,
    decode_of_row .getsec 4 (by decide) rfl⟩

end Sys2Proof.Machine
end

section
/-! # The mix primitive and the readers as numbers (R80 to R83) -/

namespace Sys2Proof.Machine

/-! ## Mix -/

/-- The product of two words has no more than 128 bits, so both halves of the exact product are in the fold. -/
theorem mix_toNat (a b : Word) :
    (mix a b).toNat = (a.toNat * b.toNat % 2 ^ 64) ^^^ (a.toNat * b.toNat / 2 ^ 64) := by
  have hprod : a.toNat * b.toNat < 2 ^ 64 * 2 ^ 64 := Nat.mul_lt_mul'' a.isLt b.isLt
  have hexact : (a.setWidth 128 * b.setWidth 128).toNat = a.toNat * b.toNat := by
    rw [BitVec.toNat_mul, BitVec.toNat_setWidth_of_le (by decide), BitVec.toNat_setWidth_of_le (by decide),
      Nat.mod_eq_of_lt (by omega)]
  have hhigh : a.toNat * b.toNat / 2 ^ 64 < 2 ^ 64 := Nat.div_lt_of_lt_mul hprod
  simp only [mix, BitVec.toNat_xor, BitVec.extractLsb'_toNat, hexact, Nat.shiftRight_eq_div_pow, Nat.pow_zero,
    Nat.div_one, Nat.mod_eq_of_lt hhigh]

theorem mix_comm (a b : Word) : mix a b = mix b a := by
  rw [← BitVec.toNat_inj, mix_toNat, mix_toNat, Nat.mul_comm]

theorem mix_zero (a : Word) : mix a 0 = 0 := by
  rw [← BitVec.toNat_inj, mix_toNat]
  simp

/-- With 1 the product is the other operand, and its high half is 0. -/
theorem mix_one (a : Word) : mix a 1 = a := by
  have hone : (1 : Word).toNat = 1 := rfl
  rw [← BitVec.toNat_inj, mix_toNat, hone, Nat.mul_one, Nat.mod_eq_of_lt a.isLt, Nat.div_eq_of_lt a.isLt, Nat.xor_zero]

/-- Settles O8: the laws follow from the fold of the exact product; the corner products are computed. -/
theorem mixFoldsExactProduct : Obligations.MixFoldsExactProduct := by
  unfold Obligations.MixFoldsExactProduct
  exact ⟨mix_toNat, mix_comm, mix_zero, mix_one, by decide, by decide⟩

/-! ## The little-endian readers -/

theorem rd64_toNat (buf : List Byte) (o : Nat) :
    (rd64 buf o).toNat = (byteAt buf o).toNat + 256 * ((byteAt buf (o + 1)).toNat
      + 256 * ((byteAt buf (o + 2)).toNat + 256 * ((byteAt buf (o + 3)).toNat
      + 256 * ((byteAt buf (o + 4)).toNat + 256 * ((byteAt buf (o + 5)).toNat
      + 256 * ((byteAt buf (o + 6)).toNat + 256 * (byteAt buf (o + 7)).toNat)))))) := by
  rw [rd64]
  iterate 8 rw [readLE_succ_toNat _ _ (by decide)]
  simp [readLE]

theorem rd32_toNat (buf : List Byte) (o : Nat) :
    (rd32 buf o).toNat = (byteAt buf o).toNat + 256 * ((byteAt buf (o + 1)).toNat
      + 256 * ((byteAt buf (o + 2)).toNat + 256 * (byteAt buf (o + 3)).toNat)) := by
  rw [rd32]
  iterate 4 rw [readLE_succ_toNat _ _ (by decide)]
  simp [readLE]

/-- Settles O9, reader by reader. -/
theorem readersSumLittleEndianBytes : Obligations.ReadersSumLittleEndianBytes := by
  unfold Obligations.ReadersSumLittleEndianBytes
  exact fun buf o => ⟨rd64_toNat buf o, rd32_toNat buf o⟩

/-! ## The tail reader -/

/-- The three bytes stand side by side, so their disjunction is their sum. -/
theorem tail3_toNat (buf : List Byte) (p k : Nat) :
    (tail3 buf p k).toNat = 65536 * (byteAt buf p).toNat + 256 * (byteAt buf (p + k / 2)).toNat
      + (byteAt buf (p + k - 1)).toNat := by
  unfold tail3
  generalize byteAt buf p = x
  generalize byteAt buf (p + k / 2) = y
  generalize byteAt buf (p + k - 1) = z
  have hx := x.isLt
  have hy := y.isLt
  have hz := z.isLt
  have hpair : y.toNat * 2 ^ 8 ||| z.toNat = y.toNat * 2 ^ 8 + z.toNat := by
    rw [Nat.mul_comm, Nat.two_pow_add_eq_or_of_lt hz]
  have hall : x.toNat * 2 ^ 16 ||| (y.toNat * 2 ^ 8 + z.toNat) = x.toNat * 2 ^ 16 + (y.toNat * 2 ^ 8 + z.toNat) := by
    rw [Nat.mul_comm, Nat.two_pow_add_eq_or_of_lt (by omega)]
  have hwide (b : Byte) : (b.setWidth 32).toNat = b.toNat := BitVec.toNat_setWidth_of_le (by decide)
  simp only [BitVec.toNat_or, BitVec.toNat_shiftLeft, hwide, Nat.shiftLeft_eq]
  rw [Nat.mod_eq_of_lt (by omega), Nat.mod_eq_of_lt (by omega), Nat.or_assoc, hpair, hall]
  omega

/-- Settles O11: the sum, and what it is for each of the three lengths. -/
theorem tailReaderPlacesThreeBytes : Obligations.TailReaderPlacesThreeBytes := by
  unfold Obligations.TailReaderPlacesThreeBytes
  intro buf p k _ _
  have hsum := tail3_toNat buf p k
  refine ⟨hsum, ?_, ?_, ?_, ?_⟩
  · have hfirst := (byteAt buf p).isLt
    have hmiddle := (byteAt buf (p + k / 2)).isLt
    have hlast := (byteAt buf (p + k - 1)).isLt
    omega
  · rintro rfl
    rw [Nat.add_sub_cancel, show p + 1 / 2 = p from rfl] at hsum
    omega
  · rintro rfl; exact hsum
  · rintro rfl; exact hsum

end Sys2Proof.Machine
end

section
/-! # MIX, READ32, READ64 and TAIL (R84 to R87) -/

namespace Sys2Proof.Machine

/-- The packet of a command without an index has the header of its row. -/
theorem encode_of_idx_zero {i : Instr} (h : instrIdx i = 0) :
    encode i = ⟨opcodeMatch (instrOpcode i), instrOperands i⟩ := by
  rw [encode, h]
  exact congrArg (Packet.mk · _) (encodeHeader_zero _)

/-! ## MIX -/

/-- MIX answers, in every state. -/
theorem exec_mix_eq (left right : Word) (s : State) :
    exec (.mix left right) s = .next (answering s .ok (mix left right)) := by
  rw [exec_mix, State.respond_eq]

/-- Settles O12, with the laws of the primitive. -/
theorem mixCommand : Obligations.MixCommand := by
  unfold Obligations.MixCommand
  intro left right s
  have hexample : mix 0xdeadbeef 0xcafebabe = 0xb092ab7b88cf5b62 := by decide
  exact ⟨encode_of_idx_zero rfl, exec_mix_eq left right s, by rw [exec_mix_eq, exec_mix_eq, mix_comm],
    by rw [exec_mix_eq, mix_zero], by rw [exec_mix_eq, mix_one], by rw [exec_mix_eq, hexample]⟩

/-! ## The shape of the three readers -/

/-- A RANGE test, then a BOUNDS test, then a use of memory. -/
def guardedRead (s : State) (range bounds : Bool) (lo n width : Nat) (f : List Byte → Word) :
    Host.Outcome State Fault Refusal :=
  if range then .next (s.raise .range)
  else if bounds then .next (s.raise .bounds)
  else readWindow s lo n width f

theorem exec_read32_eq (addr len off : Word) (s : State) :
    exec (.read32 addr len off) s = guardedRead s (rangeFails addr len) (boundsFails len off 4)
      (addr.toNat + off.toNat) 4 32 fun window => (rd32 window 0).setWidth 64 := (rfl)

theorem exec_read64_eq (addr len off : Word) (s : State) :
    exec (.read64 addr len off) s = guardedRead s (rangeFails addr len) (boundsFails len off 8)
      (addr.toNat + off.toNat) 8 64 fun window => rd64 window 0 := (rfl)

theorem exec_tail_eq (addr len : Word) (s : State) :
    exec (.tail addr len) s = guardedRead s (rangeFails addr len) (tailFails len)
      addr.toNat len.toNat 24 fun buf => (tail3 buf 0 len.toNat).setWidth 64 := (rfl)

section
variable {s : State} {range bounds : Bool} {lo n : Nat} (width : Nat) (f : List Byte → Word)

/-- RANGE comes before everything else. -/
theorem guardedRead_range (hrange : range = true) :
    guardedRead s range bounds lo n width f = .next (answering s .range 0) := by
  rw [guardedRead, if_pos hrange, State.raise_eq]

/-- BOUNDS comes next. -/
theorem guardedRead_bounds (hrange : range = false) (hbounds : bounds = true) :
    guardedRead s range bounds lo n width f = .next (answering s .bounds 0) := by
  rw [guardedRead, if_neg (by simp [hrange]), if_pos hbounds, State.raise_eq]

/-- Past both tests memory is read. -/
theorem guardedRead_window (hrange : range = false) (hbounds : bounds = false) :
    guardedRead s range bounds lo n width f = readWindow s lo n width f := by
  rw [guardedRead, if_neg (by simp [hrange]), if_neg (by simp [hbounds])]

/-- A readable window that nobody writes is answered from its bytes. -/
theorem readWindow_quiet {buf : List Byte} (hquiet : touchesSideEffect s.cfg lo n = false) (hlen : buf.length = n)
    (hbuf : bytesAt s.mem lo buf) (htorn : s.torn = false) :
    readWindow s lo n width f = .next (answering s .ok (f buf)) := by
  rw [readWindow_ok hquiet hlen hbuf, State.respondRead_of_quiet htorn]

end

/-! ## READ32 and READ64 -/

/-- The word of a window of four bytes. -/
theorem rd32_window (b0 b1 b2 b3 : Byte) :
    (rd32 [b0, b1, b2, b3] 0).setWidth 64
      = BitVec.ofNat 64 (b0.toNat + 256 * (b1.toNat + 256 * (b2.toNat + 256 * b3.toNat))) := by
  rw [← BitVec.ofNat_toNat, rd32_toNat]
  rfl

/-- The doubleword of a window of eight bytes. -/
theorem rd64_window (b0 b1 b2 b3 b4 b5 b6 b7 : Byte) :
    rd64 [b0, b1, b2, b3, b4, b5, b6, b7] 0
      = BitVec.ofNat 64 (b0.toNat + 256 * (b1.toNat + 256 * (b2.toNat + 256 * (b3.toNat + 256 * (b4.toNat
        + 256 * (b5.toNat + 256 * (b6.toNat + 256 * b7.toNat))))))) := by
  rw [← BitVec.setWidth_eq (rd64 _ 0), ← BitVec.ofNat_toNat, rd64_toNat]
  rfl

/-- Settles O13: the two tests, then the window of four bytes. -/
theorem read32Command : Obligations.Read32Command := by
  unfold Obligations.Read32Command
  intro addr len off s
  simp only [exec_read32_eq, ← rangeFails_iff, ← rangeFails_eq_false, ← boundsFails_iff, ← boundsFails_eq_false]
  refine ⟨encode_of_idx_zero rfl, guardedRead_range _ _, guardedRead_bounds _ _, fun hrange hbounds hquiet => ?_⟩
  rw [guardedRead_window _ _ hrange hbounds]
  refine ⟨fun hfault => readWindow_bus hquiet hfault _ _, fun b0 b1 b2 b3 hbytes htorn => ?_⟩
  rw [readWindow_quiet _ _ hquiet rfl hbytes htorn, rd32_window]

/-- Settles O14: the two tests, then the window of eight bytes. -/
theorem read64Command : Obligations.Read64Command := by
  unfold Obligations.Read64Command
  intro addr len off s
  simp only [exec_read64_eq, ← rangeFails_iff, ← rangeFails_eq_false, ← boundsFails_iff, ← boundsFails_eq_false]
  refine ⟨encode_of_idx_zero rfl, guardedRead_range _ _, guardedRead_bounds _ _, fun hrange hbounds hquiet => ?_⟩
  rw [guardedRead_window _ _ hrange hbounds]
  refine ⟨fun hfault => readWindow_bus hquiet hfault _ _, fun b0 b1 b2 b3 b4 b5 b6 b7 hbytes htorn => ?_⟩
  rw [readWindow_quiet _ _ hquiet rfl hbytes htorn, rd64_window]

/-! ## TAIL -/

/-- A buffer of at most three bytes whose first, middle and last byte read as given is readable, since it has no other
byte, and those are what the tail reader places. -/
theorem exists_tail_buffer {m : Memory} {lo k : Nat} {first middle last : Byte} (hpos : 1 ≤ k) (hmax : k ≤ 3)
    (hfirst : memRead m lo = some first) (hmiddle : memRead m (lo + k / 2) = some middle)
    (hlast : memRead m (lo + k - 1) = some last) :
    ∃ buf, buf.length = k ∧ bytesAt m lo buf ∧
      (tail3 buf 0 k).setWidth 64 = BitVec.ofNat 64 (65536 * first.toNat + 256 * middle.toNat + last.toNat) := by
  rw [Nat.add_sub_assoc hpos] at hlast
  cases hread : readBytes m lo k with
  | none =>
    exfalso
    obtain ⟨i, hi, hnone⟩ := readBytes_eq_none.1 hread
    obtain rfl | rfl | rfl : i = 0 ∨ i = k / 2 ∨ i = k - 1 := by omega
    · rw [Nat.add_zero, hfirst] at hnone; cases hnone
    · rw [hmiddle] at hnone; cases hnone
    · rw [hlast] at hnone; cases hnone
  | some buf =>
    obtain ⟨hlen, hbuf⟩ := readBytes_eq_some.1 hread
    refine ⟨buf, hlen, hbuf, ?_⟩
    rw [← BitVec.ofNat_toNat, tail3_toNat, Nat.zero_add, Nat.zero_add,
      byteAt_of_bytesAt (i := 0) hbuf (by omega) hfirst, byteAt_of_bytesAt hbuf (by omega) hmiddle,
      byteAt_of_bytesAt hbuf (by omega) hlast]

/-- Settles O15: the two tests, then the whole buffer. -/
theorem tailCommand : Obligations.TailCommand := by
  unfold Obligations.TailCommand
  intro addr len s
  simp only [exec_tail_eq, ← rangeFails_iff, ← rangeFails_eq_false, ← tailFails_iff]
  refine ⟨encode_of_idx_zero rfl, guardedRead_range _ _, guardedRead_bounds _ _, fun hrange hpos hmax hquiet => ?_⟩
  rw [guardedRead_window _ _ hrange ((tailFails_eq_false len).2 ⟨hpos, hmax⟩)]
  refine ⟨fun hfault => readWindow_bus hquiet hfault _ _, fun first middle last hfirst hmiddle hlast htorn => ?_⟩
  obtain ⟨buf, hlen, hbuf, hvalue⟩ := exists_tail_buffer hpos hmax hfirst hmiddle hlast
  rw [readWindow_quiet _ _ hquiet hlen hbuf htorn, hvalue]

end Sys2Proof.Machine
end

section
/-! # The 64-bit pipeline (R100 to R106, R109)

The loops of the model carry fuel; `blockLoop_hash64Blocks` and `stepLoop_hash64Steps` say once that with enough of it
they are the loops of the text.  How far a loop goes is then read off the text's rules, by induction over them. -/

namespace Sys2Proof.Machine

open Sys2Proof.Transcript

/-! ## The loops of the text (R100) -/

/-- Phase 1 of the model runs the block loop of the text: each block uses up fuel, and more of `rem`. -/
theorem blockLoop_hash64Blocks (buf : List Byte) (sec : SecretBank) {fuel : Nat} {w : Work64} (h : w.rem ≤ fuel) :
    BlockLoop buf sec w.p w.rem w.seed w.seedExtra (hash64Blocks buf sec fuel w).p (hash64Blocks buf sec fuel w).rem
      (hash64Blocks buf sec fuel w).seed := by
  induction fuel generalizing w with
  | zero =>
    rw [hash64Blocks_done (by omega)]
    exact .done _ _ _ _ (by omega)
  | succ fuel ih =>
    by_cases hrem : w.rem > 64
    · have hfuel : w.rem - 64 ≤ fuel := by omega
      rw [hash64Blocks_block hrem]
      exact .block _ _ _ _ _ _ _ hrem (ih (w := ⟨_, _, _, _⟩) hfuel)
    · rw [hash64Blocks_done hrem]
      exact .done _ _ _ _ hrem

/-- Phase 2 of the model runs the step loop of the text. -/
theorem stepLoop_hash64Steps (buf : List Byte) (sec : SecretBank) {fuel : Nat} {w : Work64} (h : w.rem ≤ fuel) :
    StepLoop buf sec w.p w.rem w.seed (hash64Steps buf sec fuel w).p (hash64Steps buf sec fuel w).rem
      (hash64Steps buf sec fuel w).seed := by
  induction fuel generalizing w with
  | zero =>
    rw [hash64Steps_done (by omega)]
    exact .done _ _ _ (by omega)
  | succ fuel ih =>
    by_cases hrem : w.rem > 16
    · have hfuel : w.rem - 16 ≤ fuel := by omega
      rw [hash64Steps_step hrem]
      exact .step _ _ _ _ _ _ hrem (ih (w := ⟨_, _, _, _⟩) hfuel)
    · rw [hash64Steps_done hrem]
      exact .done _ _ _ hrem

/-- Settles O16: the loops end where the model's do, and the branches of phase 3 are the model's. -/
theorem hash64IsTheAlgorithm : Obligations.Hash64IsTheAlgorithm := by
  unfold Obligations.Hash64IsTheAlgorithm
  intro buf len seed sec
  exact ⟨_, _, _, _, _, _, blockLoop_hash64Blocks buf sec (w := ⟨0, len, seed, seed⟩) le_rfl,
    stepLoop_hash64Steps buf sec le_rfl, rfl⟩

/-! ## The path (R105)

Of `rem` bytes the block loop takes `(rem - 1) / 64` blocks, which is 0 up to 64 bytes and ceil((rem - 64) / 64) above;
the step loop likewise. -/

theorem blockLoop_path {buf : List Byte} {sec : SecretBank} {p rem p' rem' : Nat} {seed seedExtra seed' : Word}
    (h : BlockLoop buf sec p rem seed seedExtra p' rem' seed') :
    p' = p + 64 * ((rem - 1) / 64) ∧ rem' = rem - 64 * ((rem - 1) / 64) := by
  induction h with
  | done => omega
  | block => omega

theorem stepLoop_path {buf : List Byte} {sec : SecretBank} {p rem p' rem' : Nat} {seed seed' : Word}
    (h : StepLoop buf sec p rem seed p' rem' seed') :
    p' = p + 16 * ((rem - 1) / 16) ∧ rem' = rem - 16 * ((rem - 1) / 16) := by
  induction h with
  | done => omega
  | step => omega

/-- Settles O17: both loops from their paths. -/
theorem hash64PathFollowsLength : Obligations.Hash64PathFollowsLength := by
  unfold Obligations.Hash64PathFollowsLength
  intro buf sec len seed blocks left steps after1 after2
  obtain ⟨hp1, hrem1⟩ : after1.p = 0 + 64 * ((len - 1) / 64) ∧ after1.rem = len - 64 * ((len - 1) / 64) :=
    blockLoop_path (blockLoop_hash64Blocks buf sec (w := ⟨0, len, seed, seed⟩) le_rfl)
  obtain ⟨hp2, hrem2⟩ : after2.p = after1.p + 16 * ((after1.rem - 1) / 16) ∧
      after2.rem = after1.rem - 16 * ((after1.rem - 1) / 16) :=
    stepLoop_path (stepLoop_hash64Steps buf sec le_rfl)
  have hblocks : blocks = (len - 1) / 64 := by simp only [blocks]; split <;> omega
  have hleft : left = len - 64 * blocks := rfl
  have hsteps : steps = (left - 1) / 16 := by simp only [steps]; split <;> omega
  clear_value blocks left steps after1 after2
  omega

/-! ## The bytes that count (R102, R106) -/

/-- Two buffers have the same `n` bytes from offset `lo` on. -/
def SameBytes (buf buf' : List Byte) (lo n : Nat) : Prop := ∀ j, lo ≤ j → j < lo + n → byteAt buf j = byteAt buf' j

theorem SameBytes.mono {buf buf' : List Byte} {lo n lo' n' : Nat} (h : SameBytes buf buf' lo n) (hlo : lo ≤ lo')
    (hhi : lo' + n' ≤ lo + n) : SameBytes buf buf' lo' n' := fun j hj hj' => h j (by omega) (by omega)

/-- What is appended to a buffer stands behind its bytes. -/
theorem sameBytes_append (buf beyond : List Byte) {lo n : Nat} (h : lo + n ≤ buf.length) :
    SameBytes (buf ++ beyond) buf lo n := fun _ _ hj => List.getD_append _ _ _ _ (by omega)

section
variable {buf buf' : List Byte}

theorem rd64_congr {o : Nat} (h : SameBytes buf buf' o 8) : rd64 buf o = rd64 buf' o := readLE_congr h

theorem rd32_congr {o : Nat} (h : SameBytes buf buf' o 4) : rd32 buf o = rd32 buf' o := readLE_congr h

/-- The tail reader stays inside its `k` bytes, if there are any. -/
theorem tail3_congr {p k : Nat} (hk : 0 < k) (h : SameBytes buf buf' p k) : tail3 buf p k = tail3 buf' p k := by
  rw [tail3, tail3, h p (by omega) (by omega), h (p + k / 2) (by omega) (by omega),
    h (p + k - 1) (by omega) (by omega)]

/-- The new `seed` of a block looks at its first 32 bytes. -/
theorem blockSeed_congr {p : Nat} (h : SameBytes buf buf' p 32) (sec : SecretBank) (seed : Word) :
    blockSeed buf sec p seed = blockSeed buf' sec p seed := by
  rw [blockSeed, blockSeed, rd64_congr (h.mono (lo' := p + 0) (by omega) (by omega)),
    rd64_congr (h.mono (lo' := p + 8) (by omega) (by omega)),
    rd64_congr (h.mono (lo' := p + 16) (by omega) (by omega)),
    rd64_congr (h.mono (lo' := p + 24) (by omega) (by omega))]

/-- `w` with another `seed_extra`. -/
def Work64.withExtra (e : Word) (w : Work64) : Work64 := { w with seedExtra := e }

@[simp] theorem Work64.withExtra_p (e : Word) (w : Work64) : (w.withExtra e).p = w.p := (rfl)
@[simp] theorem Work64.withExtra_rem (e : Word) (w : Work64) : (w.withExtra e).rem = w.rem := (rfl)
@[simp] theorem Work64.withExtra_seed (e : Word) (w : Work64) : (w.withExtra e).seed = w.seed := (rfl)

/-- Phase 1 looks, for all but `seed_extra`, at the first 32 bytes of every block; `seed_extra` never enters the
rest. -/
theorem hash64Blocks_congr (sec : SecretBank) (fuel : Nat) {w : Work64} (e : Word)
    (h : ∀ k < (w.rem - 1) / 64, SameBytes buf buf' (w.p + 64 * k) 32) :
    ∃ e', hash64Blocks buf sec fuel (w.withExtra e) = (hash64Blocks buf' sec fuel w).withExtra e' := by
  induction fuel generalizing w e with
  | zero => exact ⟨e, rfl⟩
  | succ fuel ih =>
    by_cases hrem : w.rem > 64
    · have hseed : blockSeed buf sec w.p w.seed = blockSeed buf' sec w.p w.seed :=
        blockSeed_congr (h 0 (by omega)) sec w.seed
      have hnext : ∀ k < (w.rem - 64 - 1) / 64, SameBytes buf buf' (w.p + 64 + 64 * k) 32 :=
        fun k hk => (h (k + 1) (by omega)).mono (by omega) (by omega)
      rw [hash64Blocks_block hrem, hash64Blocks_block (w := w.withExtra e) hrem, Work64.withExtra_p,
        Work64.withExtra_seed, hseed]
      exact ih (w := ⟨_, _, _, _⟩) _ hnext
    · rw [hash64Blocks_done hrem, hash64Blocks_done (w := w.withExtra e) hrem]
      exact ⟨e, rfl⟩

/-- Phase 2 looks at the bytes that are left, and leaves `seed_extra` alone. -/
theorem hash64Steps_congr (sec : SecretBank) (fuel : Nat) {w : Work64} (e : Word)
    (h : SameBytes buf buf' w.p w.rem) :
    hash64Steps buf sec fuel (w.withExtra e) = (hash64Steps buf' sec fuel w).withExtra e := by
  induction fuel generalizing w with
  | zero => rfl
  | succ fuel ih =>
    by_cases hrem : w.rem > 16
    · have hnext : SameBytes buf buf' (w.p + 16) (w.rem - 16) := h.mono (by omega) (by omega)
      rw [hash64Steps_step hrem, hash64Steps_step (w := w.withExtra e) hrem, Work64.withExtra_p, Work64.withExtra_seed,
        rd64_congr (h.mono (by omega) (by omega)), rd64_congr (h.mono (lo' := w.p + 8) (by omega) (by omega))]
      exact ih (w := ⟨_, _, _, _⟩) hnext
    · rw [hash64Steps_done hrem, hash64Steps_done (w := w.withExtra e) hrem]

/-- Phase 3 looks at the remainder, whichever branch it takes. -/
theorem hash64Inner_congr {p r : Nat} (h : SameBytes buf buf' p r) (sec : SecretBank) (seed : Word) :
    hash64Inner buf sec p r seed = hash64Inner buf' sec p r seed := by
  unfold hash64Inner
  split_ifs with h8 h4 h0
  · rw [rd64_congr (h.mono (by omega) (by omega)), rd64_congr (h.mono (lo' := p + r - 8) (by omega) (by omega))]
  · rw [rd32_congr (h.mono (by omega) (by omega)), rd32_congr (h.mono (lo' := p + r - 4) (by omega) (by omega))]
  · rw [tail3_congr h0 h]
  · rfl

/-- The hash looks at the first 32 bytes of every block and at what is left after the blocks. -/
theorem hash64Value_congr {len : Nat} (hblocks : ∀ k < (len - 1) / 64, SameBytes buf buf' (64 * k) 32)
    (hrest : SameBytes buf buf' (64 * ((len - 1) / 64)) (len - 64 * ((len - 1) / 64))) (seed : Word)
    (sec : SecretBank) : hash64Value buf len seed sec = hash64Value buf' len seed sec := by
  obtain ⟨e, he⟩ : ∃ e, hash64Blocks buf sec len ⟨0, len, seed, seed⟩
      = (hash64Blocks buf' sec len ⟨0, len, seed, seed⟩).withExtra e :=
    hash64Blocks_congr sec len (w := ⟨0, len, seed, seed⟩) seed (by simpa using hblocks)
  obtain ⟨hp1, hrem1⟩ :=
    blockLoop_path (blockLoop_hash64Blocks buf' sec (w := ⟨0, len, seed, seed⟩) (fuel := len) le_rfl)
  unfold hash64Value
  simp only [he, Work64.withExtra_rem]
  generalize hash64Blocks buf' sec len ⟨0, len, seed, seed⟩ = w at hp1 hrem1 ⊢
  have hleft : SameBytes buf buf' w.p w.rem := by rwa [hp1, hrem1, Nat.zero_add]
  obtain ⟨hp2, hrem2⟩ := stepLoop_path (stepLoop_hash64Steps buf' sec (w := w) le_rfl)
  rw [hash64Steps_congr sec _ e hleft, Work64.withExtra_p, Work64.withExtra_rem, Work64.withExtra_seed,
    hash64Inner_congr (hleft.mono (by omega) (by omega))]

end

/-- Settles O18: the blocks and what is left after them lie inside the buffer. -/
theorem hash64ReadsOnlyTheBuffer : Obligations.Hash64ReadsOnlyTheBuffer := by
  unfold Obligations.Hash64ReadsOnlyTheBuffer
  intro buf beyond seed sec
  exact hash64Value_congr (fun k hk => sameBytes_append buf beyond (by omega))
    (sameBytes_append buf beyond (by omega)) seed sec

/-- Settles O19: the offsets where the buffers may differ are not among the bytes that count. -/
theorem seedExtraIsDiscarded : Obligations.SeedExtraIsDiscarded := by
  unfold Obligations.SeedExtraIsDiscarded
  refine ⟨fun buf buf' len seed sec hsame => ?_, fun addr len seed a hfits => ?_⟩
  · refine hash64Value_congr (fun k hk j hlo hhi => (hsame j).resolve_right ?_)
      (fun j hlo hhi => (hsame j).resolve_right ?_) seed sec
    · omega
    · omega
  · rw [inReadSet_iff, readSet, hashWindow_of_fits hfits]

/-! ## The seed-0 collapse (R109) -/

/-- On at most three bytes the inner mix has the seed itself for a factor. -/
theorem hash64Inner_seed_zero (buf : List Byte) (sec : SecretBank) (p : Nat) {r : Nat} (h : r ≤ 3) :
    hash64Inner buf sec p r 0 = 0 := by
  unfold hash64Inner
  rw [if_neg (by omega), if_neg (by omega)]
  split
  · exact mix_zero _
  · exact mix_zero _

/-- At most three bytes enter phase 3 at once, with the seed as it is. -/
theorem hash64Value_seed_zero (buf : List Byte) (sec : SecretBank) {len : Nat} (h : len ≤ 3) :
    hash64Value buf len 0 sec = 0 := by
  unfold hash64Value
  simp only
  rw [hash64Blocks_done (by simp only; omega), hash64Steps_done (by simp only; omega),
    hash64Inner_seed_zero _ _ _ h, mix_zero]

/-- Settles O20: the outer mix has the inner one for a factor, and that is 0. -/
theorem shortBufferWithSeedZeroHashesToZero : Obligations.ShortBufferWithSeedZeroHashesToZero := by
  unfold Obligations.ShortBufferWithSeedZeroHashesToZero
  refine ⟨fun buf len sec => hash64Value_seed_zero buf sec, ?_⟩
  intro buf len seed sec after1 after2 hseed hrem
  calc hash64Value buf len seed sec
      = mix (sec.w1 ^^^ BitVec.ofNat 64 len) (hash64Inner buf sec after2.p after2.rem after2.seed) := (rfl)
    _ = 0 := by rw [hseed, hash64Inner_seed_zero _ _ _ hrem, mix_zero]

end Sys2Proof.Machine
end

section
/-! # HASH64 and HASH64D (R107, R108) -/

namespace Sys2Proof.Machine

/-! ## The shape of the hash commands -/

/-- A RANGE test, then the whole buffer: the hash commands have no BOUNDS test. -/
def hashRead (s : State) (addr len : Word) (width : Nat) (f : List Byte → Word) : Host.Outcome State Fault Refusal :=
  guardedRead s (rangeFails addr len) false addr.toNat len.toNat width f

theorem exec_hash64_eq (addr len seed : Word) (s : State) :
    exec (.hash64 addr len seed) s = hashRead s addr len 64 fun buf => hash64Value buf len.toNat seed s.secret := (rfl)

theorem exec_hash64d_eq (addr len seed : Word) (s : State) :
    exec (.hash64d addr len seed) s
      = hashRead s addr len 64 fun buf => hash64Value buf len.toNat seed s.cfg.defaultSecret := (rfl)

section
variable {s : State} {addr len : Word} (width : Nat) (f : List Byte → Word)

theorem hashRead_range (h : addr.toNat + len.toNat > 2 ^ 64) :
    hashRead s addr len width f = .next (answering s .range 0) :=
  guardedRead_range _ _ ((rangeFails_iff addr len).2 h)

/-- A buffer that does not wrap is read. -/
theorem hashRead_window (h : addr.toNat + len.toNat ≤ 2 ^ 64) :
    hashRead s addr len width f = readWindow s addr.toNat len.toNat width f :=
  guardedRead_window _ _ ((rangeFails_eq_false addr len).2 h) rfl

/-- The empty buffer reads no memory, so it neither wraps nor faults nor has read side effects, at any address. -/
theorem hashRead_empty (hlen : len = 0) (htorn : s.torn = false) :
    hashRead s addr len width f = .next (answering s .ok (f [])) := by
  subst hlen
  rw [hashRead_window _ _ (by simpa using addr.isLt.le)]
  exact readWindow_quiet _ _ (touchesSideEffect_zero s.cfg _) rfl (by simp [bytesAt]) htorn

end

/-- The answer of the empty buffer, with the secret of either command. -/
theorem hashRead_hash64Value_empty {s : State} {addr len : Word} (hlen : len = 0) (htorn : s.torn = false)
    (seed : Word) (sec : SecretBank) :
    hashRead s addr len 64 (fun buf => hash64Value buf len.toNat seed sec)
      = .next (answering s .ok (mix sec.w1 (mix sec.w0 seed))) := by
  rw [hashRead_empty _ _ hlen htorn, hlen, ← hash64Value_empty [] seed sec]
  rfl

/-! ## The two commands -/

/-- Settles O21: the range test, then the whole buffer under the bank. -/
theorem hash64Command : Obligations.Hash64Command := by
  unfold Obligations.Hash64Command
  intro addr len seed s
  simp only [exec_hash64_eq]
  refine ⟨encode_of_idx_zero rfl, hashRead_range _ _, fun hfits hquiet => ?_,
    fun hlen htorn => hashRead_hash64Value_empty hlen htorn seed s.secret⟩
  rw [hashRead_window _ _ hfits]
  refine ⟨fun hfault => readWindow_bus hquiet hfault _ _, fun buf hlen hbuf htorn => ?_⟩
  rw [readWindow_quiet _ _ hquiet hlen hbuf htorn]
  refine ⟨rfl, ?_⟩
  rintro rfl hshort
  rw [hash64Value_seed_zero _ _ hshort]

/-- Settles O22: the range test, then the whole buffer under the default secret; in the example, seed 1 makes the inner
mix `DEFAULT_SECRET[0]`. -/
theorem hash64dCommand : Obligations.Hash64dCommand := by
  unfold Obligations.Hash64dCommand
  intro addr len seed s
  simp only [exec_hash64d_eq]
  refine ⟨encode_of_idx_zero rfl, hashRead_range _ _, fun hfits hquiet => ?_,
    fun hlen htorn => hashRead_hash64Value_empty hlen htorn seed s.cfg.defaultSecret,
    fun hliterals htorn => ?_⟩
  · rw [hashRead_window _ _ hfits]
    exact ⟨fun hfault => readWindow_bus hquiet hfault _ _,
      fun buf hlen hbuf htorn => readWindow_quiet _ _ hquiet hlen hbuf htorn⟩
  · have hvalue : mix 0xe7037ed1a0b428db 0xa0761d6478bd642f = 0x1ff5c2923a788d2c := by decide
    rw [hashRead_hash64Value_empty rfl htorn, hliterals, mix_one, hvalue]

end Sys2Proof.Machine
end

section
/-! # The 32-bit pipeline (R120 to R123, R125) -/

namespace Sys2Proof.Machine

open Sys2Proof.Transcript

/-! ## The re-mix (R120) -/

/-- An accumulator masked by a constant, zero-extended as the constant is wider. -/
theorem mask32_toNat (a : Half) (m : Word) : (a.setWidth 64 ^^^ m).toNat = a.toNat ^^^ m.toNat := by
  rw [BitVec.toNat_xor, BitVec.toNat_setWidth_of_le (by decide)]

/-- The low half of the product. -/
theorem mix32_fst_toNat (cfg : Config) (a b : Half) :
    (mix32 cfg a b).1.toNat
      = (a.toNat ^^^ cfg.hash32Mod1.toNat) * (b.toNat ^^^ cfg.hash32Mod2.toNat) % 2 ^ 64 % 2 ^ 32 := by
  simp only [mix32, BitVec.extractLsb'_toNat, BitVec.toNat_mul, mask32_toNat, Nat.shiftRight_zero]

/-- The high half of the product; a word has no bits above it. -/
theorem mix32_snd_toNat (cfg : Config) (a b : Half) :
    (mix32 cfg a b).2.toNat
      = (a.toNat ^^^ cfg.hash32Mod1.toNat) * (b.toNat ^^^ cfg.hash32Mod2.toNat) % 2 ^ 64 / 2 ^ 32 := by
  simp only [mix32, BitVec.extractLsb'_toNat, BitVec.toNat_mul, mask32_toNat, Nat.shiftRight_eq_div_pow]
  omega

/-- Settles O24: masks of 32 bits keep the factors below 2^32, so nothing of the product is cut off. -/
theorem mix32CutsTheProduct : Obligations.Mix32CutsTheProduct := by
  unfold Obligations.Mix32CutsTheProduct
  intro cfg a b x y
  have hlow : (mix32 cfg a b).1.toNat = x * y % 2 ^ 64 % 2 ^ 32 := mix32_fst_toNat cfg a b
  have hhigh : (mix32 cfg a b).2.toNat = x * y % 2 ^ 64 / 2 ^ 32 := mix32_snd_toNat cfg a b
  refine ⟨hlow, hhigh, fun h1 h2 => ?_⟩
  have hexact : x * y < 2 ^ 64 := calc
    x * y < 2 ^ 32 * 2 ^ 32 := Nat.mul_lt_mul'' (Nat.xor_lt_two_pow a.isLt h1) (Nat.xor_lt_two_pow b.isLt h2)
    _ = 2 ^ 64 := by norm_num
  rw [hlow, hhigh, Nat.mod_add_div, Nat.mod_eq_of_lt hexact]

/-! ## The loop of the text (R121) -/

/-- The loop of the model runs the loop of the text. -/
theorem wordLoop_hash32Loop (cfg : Config) (buf : List Byte) {fuel : Nat} {w : Work32} (h : w.rem ≤ fuel) :
    WordLoop cfg buf w.p w.rem w.seed w.see1 (hash32Loop cfg buf fuel w).p (hash32Loop cfg buf fuel w).rem
      (hash32Loop cfg buf fuel w).seed (hash32Loop cfg buf fuel w).see1 := by
  induction fuel generalizing w with
  | zero =>
    rw [hash32Loop_done (by omega)]
    exact .done _ _ _ _ (by omega)
  | succ fuel ih =>
    by_cases hrem : w.rem > 8
    · have hfuel : w.rem - 8 ≤ fuel := by omega
      rw [hash32Loop_step hrem]
      exact .step _ _ _ _ _ _ _ _ hrem (ih (w := remix32 cfg ⟨_, _, _, _⟩) hfuel)
    · rw [hash32Loop_done hrem]
      exact .done _ _ _ _ hrem

/-- The accumulators after the remainder, branch by branch: 1 to 3 bytes go to `seed` alone (R123). -/
theorem hash32Tail_accumulators (buf : List Byte) (w : Work32) :
    ((hash32Tail buf w).seed, (hash32Tail buf w).see1) =
      if w.rem ≥ 4 then (w.seed ^^^ rd32 buf w.p, w.see1 ^^^ rd32 buf (w.p + w.rem - 4))
      else if w.rem > 0 then (w.seed ^^^ tail3 buf w.p w.rem, w.see1) else (w.seed, w.see1) := by
  unfold hash32Tail
  split_ifs
  · rfl
  · rfl
  · rfl

/-- Settles O25: the loop ends where the model's does, and the remainder's branches are the model's. -/
theorem hash32IsTheAlgorithm : Obligations.Hash32IsTheAlgorithm := by
  unfold Obligations.Hash32IsTheAlgorithm
  intro cfg buf len seed0
  refine ⟨_, _, _, _, wordLoop_hash32Loop cfg buf (w := remix32 cfg (hash32Start len seed0)) le_rfl, ?_⟩
  rw [← hash32Tail_accumulators]
  rfl

/-! ## The path (R125)

Of `rem` bytes the loop takes `(rem - 1) / 8` steps, which is 0 up to 8 bytes and ceil((rem - 8) / 8) above. -/

theorem wordLoop_path {cfg : Config} {buf : List Byte} {p rem p' rem' : Nat} {seed see1 seed' see1' : Half}
    (h : WordLoop cfg buf p rem seed see1 p' rem' seed' see1') :
    p' = p + 8 * ((rem - 1) / 8) ∧ rem' = rem - 8 * ((rem - 1) / 8) := by
  induction h with
  | done => omega
  | step => omega

/-- Settles O26 from the loop's path. -/
theorem hash32PathFollowsLength : Obligations.Hash32PathFollowsLength := by
  unfold Obligations.Hash32PathFollowsLength
  intro cfg buf len seed iterations looped
  obtain ⟨hp, hrem⟩ : looped.p = 0 + 8 * ((len - 1) / 8) ∧ looped.rem = len - 8 * ((len - 1) / 8) :=
    wordLoop_path (wordLoop_hash32Loop cfg buf (w := remix32 cfg (hash32Start len seed)) le_rfl)
  have hiterations : iterations = (len - 1) / 8 := by simp only [iterations]; split <;> omega
  clear_value iterations looped
  omega

end Sys2Proof.Machine
end

section
/-! # HASH32 (R124) -/

namespace Sys2Proof.Machine

theorem exec_hash32_eq (addr len seed : Word) (s : State) :
    exec (.hash32 addr len seed) s
      = hashRead s addr len 32 fun buf => (hash32Value s.cfg buf len.toNat (seed.setWidth 32)).setWidth 64 := (rfl)

/-- HASH32 looks at the low half of its seed alone. -/
theorem exec_hash32_congr_seed {seed seed' : Word} (h : seed'.toNat % 2 ^ 32 = seed.toNat % 2 ^ 32)
    (addr len : Word) (s : State) : exec (.hash32 addr len seed') s = exec (.hash32 addr len seed) s := by
  have hlow : seed'.setWidth 32 = seed.setWidth 32 := by
    rw [← BitVec.toNat_inj, BitVec.toNat_setWidth, BitVec.toNat_setWidth, h]
  rw [exec_hash32_eq, exec_hash32_eq, hlow]

/-- Settles O27: the range test, then the whole buffer under the low half of the seed. -/
theorem hash32Command : Obligations.Hash32Command := by
  unfold Obligations.Hash32Command
  intro addr len seed s
  refine ⟨encode_of_idx_zero rfl, fun hwraps => ?_, fun hfits hquiet => ?_,
    fun seed' hseed => exec_hash32_congr_seed hseed addr len s⟩
  · rw [exec_hash32_eq, hashRead_range _ _ hwraps]
  · rw [exec_hash32_eq, hashRead_window _ _ hfits, BitVec.ofNat_toNat]
    exact ⟨fun hfault => readWindow_bus hquiet hfault _ _,
      fun buf hlen hbuf htorn => readWindow_quiet _ _ hquiet hlen hbuf htorn⟩

end Sys2Proof.Machine
end

section
/-! # The PRNG commands (R140 to R149) -/

namespace Sys2Proof.Machine

/-! ## `random` and its partner (R140, R141) -/

/-- Seed 0 gives 0 under every partner. -/
theorem random_zero (cfg : Config) : random cfg 0 = 0 := by
  rw [random, mix_comm, mix_zero]

/-- A partner without exceptions is the exclusive or. -/
theorem random_of_xor {cfg : Config} {c : Word} (h : cfg.partner = ⟨c, []⟩) (seed : Word) :
    random cfg seed = mix seed (seed ^^^ c) := by
  rw [random, h]
  rfl

/-- The transcribed increment under the default partner. -/
theorem random_defaultIncrement {cfg : Config} (h : cfg.partner = ⟨0xe7037ed1a0b428db, []⟩) :
    random cfg 0xa0761d6478bd642f = 0x111cb3a78f59a58e := by
  rw [random_of_xor h]
  decide

/-- RANDOM answers, in every state. -/
theorem exec_random_eq (seed : Word) (s : State) :
    exec (.random seed) s = .next (answering s .ok (random s.cfg seed)) := by
  rw [exec_random, State.respond_eq]

theorem exec_random_zero (s : State) : exec (.random 0) s = .next (answering s .ok 0) := by
  rw [exec_random_eq, random_zero]

/-- Settles O28: the values of R143 are three products, computed. -/
theorem randomCommand : Obligations.RandomCommand := by
  unfold Obligations.RandomCommand
  intro seed s
  refine ⟨encode_of_idx_zero rfl, exec_random_eq seed s, exec_random_zero s, fun hpartner => ?_⟩
  have hone : random s.cfg 1 = 0xe7037ed1a0b428da := by rw [random_of_xor hpartner]; decide
  have hones : random s.cfg 0xFFFFFFFFFFFFFFFF = 0xFFFFFFFFFFFFFFFF := by rw [random_of_xor hpartner]; decide
  exact ⟨by rw [exec_random_eq, hone], by rw [exec_random_eq, hones],
    by rw [exec_random_eq, random_defaultIncrement hpartner]⟩

/-- The partner that lists every word as an exception. -/
noncomputable def partnerListing (f : Word → Word) : Partner where
  xorWith := 0
  exceptions := (Finset.univ : Finset Word).toList.map fun w => (w, f w)

theorem partnerOf_partnerListing (f : Word → Word) (w : Word) : partnerOf (partnerListing f) w = f w := by
  have hlookup : (partnerListing f).exceptions.lookup w = some (f w) :=
    List.lookup_graph f (Finset.mem_toList.2 (Finset.mem_univ w))
  rw [partnerOf, hlookup]

/-- Settles O29: a function on finitely many words is the list of its values. -/
theorem everyPartnerFunctionIsAllowed : Obligations.EveryPartnerFunctionIsAllowed := by
  unfold Obligations.EveryPartnerFunctionIsAllowed
  exact ⟨fun f => ⟨partnerListing f, partnerOf_partnerListing f⟩, fun _ => rfl⟩

/-! ## The two channels (R144 to R149) -/

/-- A sum modulo 2^64, as the rules write it, is the sum of words. -/
theorem eq_add_of_toNat {v a m : Word} (h : v.toNat = (a.toNat + m.toNat) % 2 ^ 64) : v = a + m :=
  BitVec.eq_of_toNat_eq (h.trans (BitVec.toNat_add a m).symm)

/-- Settles O30: the advanced seed is a sum of words, and adding an increment other than 0 changes it. -/
theorem exclusiveChannelCommands : Obligations.ExclusiveChannelCommands := by
  unfold Obligations.ExclusiveChannelCommands
  intro seed s
  refine ⟨encode_of_idx_zero rfl, encode_of_idx_zero rfl, encode_of_idx_zero rfl, exec_xcreate seed s,
    fun v hv => ?_, exec_xinto s⟩
  obtain rfl := eq_add_of_toNat hv
  exact ⟨exec_xnext s, fun hmod hsame => hmod (BitVec.add_right_eq_self.1 hsame)⟩

/-- Settles O31: both stored seeds are sums of words. -/
theorem sharedChannelCommands : Obligations.SharedChannelCommands := by
  unfold Obligations.SharedChannelCommands
  intro seed s
  refine ⟨encode_of_idx_zero rfl, encode_of_idx_zero rfl, encode_of_idx_zero rfl, fun v hv => ?_,
    fun v hv => ?_, exec_sinto s⟩
  · obtain rfl := eq_add_of_toNat hv
    exact exec_screate seed s
  · obtain rfl := eq_add_of_toNat hv
    exact exec_snext s

/-! ## The increment and the bank (R142) -/

/-- The commands of the PRNG engine. -/
def PrngCommand (i : Instr) : Prop :=
  (∃ d, i = .random d) ∨ (∃ d, i = .xcreate d) ∨ i = .xnext ∨ i = .xinto ∨ (∃ d, i = .screate d) ∨
    i = .snext ∨ i = .sinto

/-- A PRNG command does the same whatever the bank holds, and hands it on. -/
theorem exec_setSecret {i : Instr} (h : PrngCommand i) (s : State) (bank : SecretBank) :
    exec i (s.setSecret bank) = mapNext (fun t => t.setSecret bank) (exec i s) := by
  obtain ⟨d, rfl⟩ | ⟨d, rfl⟩ | rfl | rfl | ⟨d, rfl⟩ | rfl | rfl := h <;> rfl

/-- No step changes the parameters, from any state. -/
theorem step_next_cfg {s t : State} (h : step s = .next t) : t.cfg = s.cfg := by
  obtain ⟨rest, -, harb⟩ | ⟨p, beats, rest, -, -, rfl⟩ | ⟨addr, cell, rest, -, rfl⟩ | ⟨rest, -, -, rfl⟩ :=
    step_cases h
  · exact (arbiterTurn_frame harb).1
  · simp
  · rfl
  · rfl

/-- Settles O40: `PRNG_MOD` is read off the parameters, which no step writes and the bank is no part of. -/
theorem prngModIsConstantAndIgnoresTheBank : Obligations.PrngModIsConstantAndIgnoresTheBank := by
  unfold Obligations.PrngModIsConstantAndIgnoresTheBank
  refine ⟨rfl, fun _ => rfl, fun s t h => by rw [step_next_cfg h], fun i s t bank hi ht => ?_⟩
  have hbank := exec_setSecret hi s bank
  rw [ht] at hbank
  exact hbank

end Sys2Proof.Machine
end

section
/-! # The seed sequence of a channel (R150 to R152) -/

namespace Sys2Proof.Machine

/-- The seed `k` increments on from `a`. -/
def seedAfter (cfg : Config) (a : Word) (k : Nat) : Word := a + BitVec.ofNat 64 k * prngMod cfg

@[simp] theorem seedAfter_zero (cfg : Config) (a : Word) : seedAfter cfg a 0 = a := by
  simp [seedAfter]

/-- The last increment. -/
theorem seedAfter_succ (cfg : Config) (a : Word) (k : Nat) :
    seedAfter cfg a (k + 1) = seedAfter cfg a k + prngMod cfg := by
  rw [seedAfter, seedAfter, BitVec.ofNat_add, BitVec.add_mul, BitVec.one_mul, BitVec.add_assoc]

/-- The first increment. -/
theorem seedAfter_add_prngMod (cfg : Config) (a : Word) (k : Nat) :
    seedAfter cfg (a + prngMod cfg) k = seedAfter cfg a (k + 1) := by
  rw [seedAfter_succ, seedAfter, seedAfter, BitVec.add_assoc, BitVec.add_comm (prngMod cfg), BitVec.add_assoc]

/-! ## Sequences of XNEXT and of SNEXT -/

/-- Of a run of XNEXTs the last seed is stored and answered. -/
theorem execAll_replicate_xnext (k : Nat) (s : State) :
    execAll (List.replicate (k + 1) .xnext) s
      = .next ((s.setXseed (seedAfter s.cfg s.xseed (k + 1))).respond
          (random s.cfg (seedAfter s.cfg s.xseed (k + 1)))) := by
  induction k generalizing s with
  | zero =>
    rw [← seedAfter_add_prngMod, seedAfter_zero]
    exact execAll_cons (exec_xnext s)
  | succ k ih =>
    rw [List.replicate_succ, execAll_cons (exec_xnext s), ih, ← seedAfter_add_prngMod _ _ (k + 1)]
    rfl

/-- Of a run of SNEXTs the last seed is stored, and the one before it answered. -/
theorem execAll_replicate_snext (k : Nat) (s : State) :
    execAll (List.replicate (k + 1) .snext) s
      = .next ((s.setSseed (seedAfter s.cfg s.sseed (k + 1))).respond
          (random s.cfg (seedAfter s.cfg s.sseed k))) := by
  induction k generalizing s with
  | zero =>
    rw [← seedAfter_add_prngMod, seedAfter_zero, seedAfter_zero]
    exact execAll_cons (exec_snext s)
  | succ k ih =>
    rw [List.replicate_succ, execAll_cons (exec_snext s), ih, ← seedAfter_add_prngMod _ _ (k + 1),
      ← seedAfter_add_prngMod s.cfg s.sseed k]
    rfl

/-- A created exclusive channel: XCREATE stores the raw seed. -/
theorem execAll_xcreate_xnext (a : Word) (k : Nat) (s : State) :
    execAll (.xcreate a :: List.replicate (k + 1) .xnext) s
      = .next ((s.setXseed (seedAfter s.cfg a (k + 1))).respond (random s.cfg (seedAfter s.cfg a (k + 1)))) := by
  rw [execAll_cons (exec_xcreate a s), execAll_replicate_xnext]
  rfl

/-- A created shared channel: SCREATE has already taken the increment that XNEXT takes before it answers. -/
theorem execAll_screate_snext (a : Word) (k : Nat) (s : State) :
    execAll (.screate a :: List.replicate (k + 1) .snext) s
      = .next ((s.setSseed (seedAfter s.cfg a (k + 1) + prngMod s.cfg)).respond
          (random s.cfg (seedAfter s.cfg a (k + 1)))) := by
  rw [execAll_cons (exec_screate a s), execAll_replicate_snext, seedAfter_succ, ← seedAfter_add_prngMod s.cfg a k]
  rfl

/-- Settles O32: both channels answer the seed `k + 1` increments on; the shared one stores the next. -/
theorem channelsProduceTheSameStream : Obligations.ChannelsProduceTheSameStream := by
  unfold Obligations.ChannelsProduceTheSameStream
  exact ⟨fun a k s => ⟨_, _, execAll_xcreate_xnext a k s, execAll_screate_snext a k s, rfl, rfl, rfl, rfl⟩, rfl, rfl⟩

/-! ## The period (R151) -/

/-- Steps of an odd size never meet within 2^64 of them. -/
theorem add_mul_injective_of_odd {m : Word} (a : Word) (hm : m.toNat % 2 = 1) :
    Function.Injective fun w : Word => a + w * m := by
  intro x y h
  have hmul : x * m = y * m := (BitVec.add_right_inj a).1 h
  have hmod : x.toNat * m.toNat ≡ y.toNat * m.toNat [MOD 2 ^ 64] := by
    rw [Nat.ModEq, ← BitVec.toNat_mul, ← BitVec.toNat_mul, hmul]
  have hcoprime : Nat.Coprime (2 ^ 64) m.toNat := (Nat.coprime_two_left.2 (Nat.odd_iff.2 hm)).pow_left 64
  exact BitVec.eq_of_toNat_eq ((hmod.cancel_right_of_coprime hcoprime).eq_of_lt_of_lt x.isLt y.isLt)

/-- Settles O33: among finitely many words an injection reaches every one. -/
theorem seedSequenceHasFullPeriod : Obligations.SeedSequenceHasFullPeriod := by
  unfold Obligations.SeedSequenceHasFullPeriod
  refine ⟨by decide, fun n s => ?_, fun cfg a v hodd => ?_⟩
  · cases n with
    | zero => exact ⟨s, s, rfl, by simp, rfl, by simp⟩
    | succ k => exact ⟨_, _, execAll_replicate_snext k s, rfl, execAll_replicate_xnext k s, rfl⟩
  · have hinj := add_mul_injective_of_odd a hodd
    obtain ⟨w, hw⟩ := Finite.surjective_of_injective hinj v
    refine ⟨w.toNat, w.isLt, by rw [BitVec.ofNat_toNat, BitVec.setWidth_eq]; exact hw, fun k hk hv => ?_⟩
    have hword : BitVec.ofNat 64 k = w := hinj (hv.trans hw.symm)
    rw [← hword, BitVec.toNat_ofNat, Nat.mod_eq_of_lt hk]

/-! ## The first two values (R152) -/

/-- Settles O34: the two answers are `random` of one and of two increments. -/
theorem firstNextsDifferFromRandomOfZero : Obligations.FirstNextsDifferFromRandomOfZero := by
  unfold Obligations.FirstNextsDifferFromRandomOfZero
  intro s
  refine ⟨_, _, _, random s.cfg (prngMod s.cfg), random s.cfg (prngMod s.cfg + prngMod s.cfg),
    exec_xcreate 0 s, exec_xnext _, exec_xnext _, by simp, by simp, exec_random_zero s,
    fun hmod hpartner => ?_, And.intro⟩
  have htwo : random s.cfg (0xa0761d6478bd642f + 0xa0761d6478bd642f) = 0xceabd938ff4e856d := by
    rw [random_of_xor hpartner]
    decide
  rw [hmod]
  exact ⟨random_defaultIncrement hpartner, htwo⟩

end Sys2Proof.Machine
end

section
/-! # NOP and the secret bank (R170 to R172) -/

namespace Sys2Proof.Machine

/-! ## NOP -/

/-- Of the headers with OPC 0 only the word 0 decodes: OPC 0 is NOP's row, which allows the index 0 alone. -/
theorem header_eq_zero_of_decode {h : Half} {ops : List Word} {i : Instr} (hopc : headerOpc h = 0)
    (hd : decode ⟨h, ops⟩ = .ok i) : h = 0 := by
  obtain ⟨op, idx, hheader, -⟩ := decode_eq_ok_iff.1 hd
  obtain ⟨rfl, hidx⟩ := decodeHeader_eq_ok_iff.1 hheader
  rw [headerOpc_encodeHeader] at hopc
  obtain rfl : op = .nop := opcodeByte_injective hopc
  rw [eq_zero_of_indexAllowed hidx rfl]
  exact encodeHeader_zero .nop

/-- Settles O36: the packet by the two round trips, the other headers by NOP's row. -/
theorem nopCommand : Obligations.NopCommand := by
  unfold Obligations.NopCommand
  have hpacket : encode .nop = ⟨0, []⟩ := encode_of_idx_zero rfl
  refine ⟨exec_nop, fun p => ⟨fun hd => ?_, ?_⟩, fun h ops hopc hne => ?_⟩
  · exact hpacket ▸ (encodeOfDecode p .nop hd).2.symm
  · rintro rfl
    exact hpacket ▸ decodeOfEncode .nop rfl
  · cases hd : decode ⟨h, ops⟩ with
    | error e => exact ⟨e, rfl⟩
    | ok i => exact absurd (header_eq_zero_of_decode hopc hd) hne

/-! ## SETSEC and GETSEC -/

/-- A legal index is one of five. -/
theorem eq_of_toNat_le_four :
    ∀ {idx : BitVec 3}, idx.toNat ≤ 4 → idx = 0 ∨ idx = 1 ∨ idx = 2 ∨ idx = 3 ∨ idx = 4 := by
  decide

/-- With a legal index, the selected word is replaced and the four others stay. -/
theorem secretSet_of_legal {idx : BitVec 3} (h : idx.toNat ≤ 4) (b : SecretBank) (v : Word) :
    secretSet b idx v = some
      { w0 := if idx = 0 then v else b.w0
        w1 := if idx = 1 then v else b.w1
        w2 := if idx = 2 then v else b.w2
        w3 := if idx = 3 then v else b.w3
        w4 := if idx = 4 then v else b.w4 } := by
  obtain rfl | rfl | rfl | rfl | rfl := eq_of_toNat_le_four h <;> rfl

/-- SETSEC of a register that does not exist is ILLEGAL. -/
theorem exec_setsec_of_illegal {idx : BitVec 3} (h : 4 < idx.toNat) (v : Word) (s : State) :
    exec (.setsec idx v) s = .next (answering s .illegal 0) := by
  simp only [exec, execSetsec, secretSet_eq_none h, State.raise_eq]

/-- GETSEC of a register that exists answers its word. -/
theorem exec_getsec_of_legal {idx : BitVec 3} {s : State} {w : Word} (h : secretGet s.secret idx = some w) :
    exec (.getsec idx) s = .next (answering s .ok w) := by
  simp only [exec, execGetsec, h, State.respond_eq]

/-- GETSEC of a register that does not exist is ILLEGAL. -/
theorem exec_getsec_of_illegal {idx : BitVec 3} (h : 4 < idx.toNat) (s : State) :
    exec (.getsec idx) s = .next (answering s .illegal 0) := by
  simp only [exec, execGetsec, secretGet_eq_none h, State.raise_eq]

/-- Settles O37: the bank that a legal SETSEC leaves is given word by word; an illegal index selects no word. -/
theorem secretBankCommands : Obligations.SecretBankCommands := by
  unfold Obligations.SecretBankCommands
  intro idx v s
  exact ⟨rfl, rfl,
    fun h => ⟨_, exec_setsec_of_legal (secretSet_of_legal h s.secret v), rfl, rfl, rfl, rfl, rfl⟩,
    fun h => exec_setsec_of_illegal h v s,
    exec_getsec_of_legal rfl, exec_getsec_of_legal rfl, exec_getsec_of_legal rfl, exec_getsec_of_legal rfl,
    exec_getsec_of_legal rfl, fun h => exec_getsec_of_illegal h s⟩

end Sys2Proof.Machine
end

section
/-! # A step of the arbiter: the request it takes, executed and answered (R22, R182, R192, R193) -/

namespace Sys2Proof.Machine

/-! ## Executing a taken request -/

/-- A packet that decodes executes its command. -/
theorem execPacket_of_decode {p : Packet} {i : Instr} (h : decode p = .ok i) (s : State) :
    execPacket p s = exec i s := by
  simp only [execPacket, h]

/-- A packet that does not decode is answered ILLEGAL, and that is all. -/
theorem execPacket_of_decode_error {p : Packet} {e : Illegal} (h : decode p = .error e) (s : State) :
    execPacket p s = .next (answering s .illegal 0) := by
  simp only [execPacket, h, State.raise_eq]

/-- A request that executes is finished on its port. -/
theorem execRequest_of_next {r : Request} {s u : State} (h : execPacket r.packet s = .next u) :
    execRequest r s = .next (u.finish r.port) := by
  simp only [execRequest, h]

/-- A request that is refused stops the step. -/
theorem execRequest_of_refused {r : Request} {s : State} {why : Refusal} (h : execPacket r.packet s = .refused why) :
    execRequest r s = .refused why := by
  simp only [execRequest, h]

/-- A request goes on only by executing. -/
theorem execRequest_next {r : Request} {s t : State} (h : execRequest r s = .next t) :
    ∃ u, execPacket r.packet s = .next u ∧ t = u.finish r.port := by
  unfold execRequest at h
  split at h
  · rename_i u hu; cases h; exact ⟨u, hu, rfl⟩
  · cases h
  · cases h

/-! ## The step -/

/-- When the arbiter's turn is next, the step executes the request it takes, in the state in which that request has
left its port. -/
theorem step_of_takeNext {s : State} {rest : List Turn} {r : Request} {others : List Request}
    (hturn : s.agenda = [] ∧ rest = [] ∨ s.agenda = .arbiter :: rest)
    (htake : takeNext s.inFlight = some (r, others)) :
    step s = execRequest r ({ s with agenda := rest }.grant r others) := by
  have hstep : step s = arbiterTurn { s with agenda := rest } := by
    unfold step
    obtain ⟨hagenda, rfl⟩ | hagenda := hturn
    · simp only [hagenda]
      rw [← hagenda]
    · rw [hagenda]
      rfl
  rw [hstep]
  simp only [arbiterTurn, htake]

/-- A request that decodes: the step is its command, then the response and the port's next request; or the refusal. -/
theorem step_of_decode {s : State} {rest : List Turn} {r : Request} {others : List Request} {i : Instr}
    (hturn : s.agenda = [] ∧ rest = [] ∨ s.agenda = .arbiter :: rest)
    (htake : takeNext s.inFlight = some (r, others)) (hdecode : decode r.packet = .ok i) :
    (∀ t, exec i ({ s with agenda := rest }.grant r others) = .next t → step s = .next (t.finish r.port)) ∧
    (∀ why, exec i ({ s with agenda := rest }.grant r others) = .refused why → step s = .refused why) := by
  rw [step_of_takeNext hturn htake]
  simp only [← execPacket_of_decode hdecode]
  exact ⟨fun t => execRequest_of_next, fun why => execRequest_of_refused⟩

/-- The packet of a table word that decodes is that command's. -/
theorem decode_tablePacket {nbits w : Nat} {i : Instr} (h : decodeTableWord nbits w = some i) :
    decode (tablePacket nbits w) = .ok i := by
  unfold decodeTableWord at h
  cases hd : decode (tablePacket nbits w) with
  | error e => rw [hd] at h; cases h
  | ok j => rw [hd] at h; cases h; rfl

/-- Settles O46: a placed request is the only one in flight, so the arbiter takes it. -/
theorem stepRunsTheDecodedCommand : Obligations.StepRunsTheDecodedCommand := by
  unfold Obligations.StepRunsTheDecodedCommand
  refine ⟨fun s rest r others i => step_of_decode, fun s nbits w i hi => ?_⟩
  have hturn : (s.withFetchWord nbits w).agenda = [] ∧ ([] : List Turn) = [] ∨
      (s.withFetchWord nbits w).agenda = [.arbiter] := .inl ⟨rfl, rfl⟩
  exact step_of_decode hturn (r := ⟨0, tablePacket nbits w, false, 0⟩) rfl (decode_tablePacket hi)

/-- Settles O47: an ILLEGAL request raises its status, and finishing sends that as the last response. -/
theorem stepAnswersAnIllegalRequest : Obligations.StepAnswersAnIllegalRequest := by
  unfold Obligations.StepAnswersAnIllegalRequest
  intro s r others e hagenda htake hillegal
  refine ⟨_, (step_of_takeNext (.inl ⟨hagenda, rfl⟩) htake).trans
    (execRequest_of_next (execPacket_of_decode_error hillegal _)), ?_, by simp, by simp, by simp, by simp⟩
  exact State.finish_sent (answering_answer ..) r.port

/-- Settles O53: the port is no part of the state in which the command executes; it is where the response goes. -/
theorem responseDoesNotDependOnPort : Obligations.ResponseDoesNotDependOnPort := by
  unfold Obligations.ResponseDoesNotDependOnPort
  intro s p q pkt torn waits t hagenda ht
  have hstep : ∀ port, step { s with inFlight := [⟨port, pkt, torn, waits⟩] }
      = execRequest ⟨port, pkt, torn, waits⟩ { s with agenda := [], inFlight := [], torn := torn } :=
    fun port => step_of_takeNext (s := { s with inFlight := [⟨port, pkt, torn, waits⟩] }) (.inl ⟨hagenda, rfl⟩) rfl
  rw [hstep] at ht
  obtain ⟨v, hv, rfl⟩ := execRequest_next ht
  refine ⟨v.finish q, ?_⟩
  obtain ⟨bank, x, y, d, st, value, hanswer⟩ := execPacket_next hv
  have hlines : v.answer = some ⟨st, value⟩ := by rw [hanswer, answering_answer]
  have hsent : v.sent = s.sent := by rw [hanswer, answering_sent]
  exact ⟨⟨st, value⟩, (hstep q).trans (execRequest_of_next hv), by rw [State.finish_sent hlines, hsent],
    by rw [State.finish_sent hlines, hsent], by simp, by simp, by simp⟩

end Sys2Proof.Machine
end

section
/-! # Statuses and failed requests (R180, R181) -/

namespace Sys2Proof.Machine

/-! ## A failure changes nothing -/

/-- A command that goes on has answered, and one that failed has done nothing else. -/
theorem exec_next_failed {i : Instr} {s t : State} (h : exec i s = .next t) :
    ∃ r : Response, t.answer = some r ∧ (r.status ≠ .ok → t = answering s r.status 0) := by
  cases exec_ends i s with
  | refused hr => rw [h] at hr; cases hr
  | failed st _ hf =>
    obtain rfl := Host.Outcome.next.inj (h.symm.trans hf)
    exact ⟨⟨st, 0⟩, answering_answer .., fun _ => rfl⟩
  | succeeded u v d _ ho =>
    obtain rfl := Host.Outcome.next.inj (h.symm.trans ho)
    exact ⟨⟨.ok, v⟩, answering_answer .., fun hne => absurd rfl hne⟩

/-- Settles O41: a packet is ILLEGAL, which raises a status and no more, or it is its command. -/
theorem failedRequestWritesNothing : Obligations.FailedRequestWritesNothing := by
  unfold Obligations.FailedRequestWritesNothing
  intro p s
  constructor
  · obtain hrefused | ⟨_, _, _, _, _, _, hnext⟩ := execPacket_answers p s
    · exact .inr hrefused
    · exact .inl ⟨_, hnext⟩
  · intro t ht
    cases hd : decode p with
    | ok i => exact exec_next_failed ((execPacket_of_decode hd s).symm.trans ht)
    | error e =>
      obtain rfl := Host.Outcome.next.inj ((execPacket_of_decode_error hd s).symm.trans ht)
      exact ⟨⟨.illegal, 0⟩, answering_answer .., fun _ => rfl⟩

/-! ## Which command raises which status -/

/-- The commands that read a buffer and check an offset or a length against it. -/
def BoundedCommand (i : Instr) : Prop :=
  (∃ a n o, i = .read32 a n o) ∨ (∃ a n o, i = .read64 a n o) ∨ ∃ a n, i = .tail a n

/-- The six commands that read a buffer. -/
def BufferCommand (i : Instr) : Prop :=
  (∃ a n o, i = .read32 a n o) ∨ (∃ a n o, i = .read64 a n o) ∨ (∃ a n, i = .tail a n) ∨
    (∃ a n d, i = .hash64 a n d) ∨ (∃ a n d, i = .hash64d a n d) ∨ ∃ a n d, i = .hash32 a n d

/-- A command may answer with a status (R181). -/
def MayAnswer (i : Instr) : Status → Prop
  | .ok => True
  | .illegal => i.wellFormed = false
  | .range => BufferCommand i
  | .bounds => BoundedCommand i
  | .bus => BufferCommand i

/-- If this outcome of a command goes on, its response has a status that the command may answer with. -/
def AnswersRightly (i : Instr) (out : Host.Outcome State Fault Refusal) : Prop :=
  ∀ t r, out = .next t → t.answer = some r → MayAnswer i r.status

theorem answersRightly_answering {i : Instr} {st : Status} (h : MayAnswer i st) (s : State) (v : Word) :
    AnswersRightly i (.next (answering s st v)) := by
  rintro t r ⟨⟩ ⟨⟩
  exact h

/-- A use of memory succeeds or is BUS. -/
theorem answersRightly_readWindow {i : Instr} (h : BufferCommand i) (s : State) (lo n width : Nat)
    (f : List Byte → Word) : AnswersRightly i (readWindow s lo n width f) := by
  unfold readWindow
  split
  · rintro t r ⟨⟩
  · split
    · exact answersRightly_answering (st := .bus) h s 0
    · rename_i buf _
      obtain ⟨w, d, hw⟩ := s.respondRead_cases width (f buf)
      rw [hw]
      exact answersRightly_answering (st := .ok) trivial _ w

/-- A guarded use of memory adds RANGE, and BOUNDS where that test can fail. -/
theorem answersRightly_guardedRead {i : Instr} {range bounds : Bool} (h : BufferCommand i)
    (hbounds : bounds = true → BoundedCommand i) (s : State) (lo n width : Nat) (f : List Byte → Word) :
    AnswersRightly i (guardedRead s range bounds lo n width f) := by
  cases range with
  | true => exact answersRightly_answering (st := .range) h s 0
  | false =>
    cases bounds with
    | true => exact answersRightly_answering (st := .bounds) (hbounds rfl) s 0
    | false => exact answersRightly_readWindow h s lo n width f

/-- READ32, READ64 and TAIL. -/
theorem BoundedCommand.answersRightly {i : Instr} (h : BoundedCommand i) (s : State) (range bounds : Bool)
    (lo n width : Nat) (f : List Byte → Word) : AnswersRightly i (guardedRead s range bounds lo n width f) :=
  answersRightly_guardedRead (h.imp_right (Or.imp_right Or.inl)) (fun _ => h) s lo n width f

/-- The hash commands. -/
theorem BufferCommand.answersRightly {i : Instr} (h : BufferCommand i) (s : State) (addr len : Word) (width : Nat)
    (f : List Byte → Word) : AnswersRightly i (hashRead s addr len width f) :=
  answersRightly_guardedRead h Bool.noConfusion s _ _ width f

/-- A legal SETSEC writes some bank and answers 0. -/
theorem exec_setsec_legal {idx : BitVec 3} (h : idx.toNat ≤ 4) (v : Word) (s : State) :
    ∃ bank, exec (.setsec idx v) s = .next (answering { s with secret := bank } .ok 0) :=
  ⟨_, exec_setsec_of_legal (secretSet_of_legal h s.secret v)⟩

/-- A legal GETSEC answers some word. -/
theorem exec_getsec_legal {idx : BitVec 3} (h : idx.toNat ≤ 4) (s : State) :
    ∃ w, exec (.getsec idx) s = .next (answering s .ok w) := by
  obtain rfl | rfl | rfl | rfl | rfl := eq_of_toNat_le_four h <;> exact ⟨_, exec_getsec_of_legal rfl⟩

theorem legalIndex_eq_false {idx : BitVec 3} (h : 4 < idx.toNat) : legalIndex idx = false := by
  simpa [legalIndex] using h

/-- Every command answers with a status that R181 gives it. -/
theorem exec_answersRightly (i : Instr) (s : State) : AnswersRightly i (exec i s) := by
  cases i with
  | read32 addr len off => exact BoundedCommand.answersRightly (.inl ⟨_, _, _, rfl⟩) s _ _ _ _ _ _
  | read64 addr len off => exact BoundedCommand.answersRightly (.inr (.inl ⟨_, _, _, rfl⟩)) s _ _ _ _ _ _
  | tail addr len => exact BoundedCommand.answersRightly (.inr (.inr ⟨_, _, rfl⟩)) s _ _ _ _ _ _
  | hash64 addr len seed =>
    rw [exec_hash64_eq]
    exact BufferCommand.answersRightly (.inr (.inr (.inr (.inl ⟨_, _, _, rfl⟩)))) s addr len _ _
  | hash64d addr len seed =>
    rw [exec_hash64d_eq]
    exact BufferCommand.answersRightly (.inr (.inr (.inr (.inr (.inl ⟨_, _, _, rfl⟩))))) s addr len _ _
  | hash32 addr len seed =>
    rw [exec_hash32_eq]
    exact BufferCommand.answersRightly (.inr (.inr (.inr (.inr (.inr ⟨_, _, _, rfl⟩))))) s addr len _ _
  | setsec idx v =>
    obtain hidx | hidx := Nat.lt_or_ge 4 idx.toNat
    · rw [exec_setsec_of_illegal hidx]
      exact answersRightly_answering (i := .setsec idx v) (st := .illegal) (legalIndex_eq_false hidx) s 0
    · obtain ⟨bank, hbank⟩ := exec_setsec_legal hidx v s
      rw [hbank]
      exact answersRightly_answering (st := .ok) trivial _ 0
  | getsec idx =>
    obtain hidx | hidx := Nat.lt_or_ge 4 idx.toNat
    · rw [exec_getsec_of_illegal hidx]
      exact answersRightly_answering (i := .getsec idx) (st := .illegal) (legalIndex_eq_false hidx) s 0
    · obtain ⟨w, hw⟩ := exec_getsec_legal hidx s
      rw [hw]
      exact answersRightly_answering (st := .ok) trivial s w
  | _ => exact answersRightly_answering (st := .ok) trivial _ _

/-- The commands without a value answer 0, whatever their status. -/
theorem result_of_valueless {i : Instr} {s t : State} {r : Response}
    (hi : i = .nop ∨ (∃ a, i = .xcreate a) ∨ (∃ a, i = .screate a) ∨ ∃ x v, i = .setsec x v)
    (ht : exec i s = .next t) (hr : t.answer = some r) : r.result = 0 := by
  have hzero : ∃ u st, exec i s = .next (answering u st 0) := by
    obtain rfl | ⟨a, rfl⟩ | ⟨a, rfl⟩ | ⟨idx, v, rfl⟩ := hi
    · exact ⟨_, _, exec_nop s⟩
    · exact ⟨_, _, exec_xcreate a s⟩
    · exact ⟨_, _, exec_screate a s⟩
    · obtain hidx | hidx := Nat.lt_or_ge 4 idx.toNat
      · exact ⟨_, _, exec_setsec_of_illegal hidx v s⟩
      · obtain ⟨bank, hbank⟩ := exec_setsec_legal hidx v s
        exact ⟨_, _, hbank⟩
  obtain ⟨u, st, hu⟩ := hzero
  obtain rfl := Host.Outcome.next.inj (ht.symm.trans hu)
  cases hr
  rfl

/-- Settles O42: the codes, then each status by the commands that can answer with it. -/
theorem statusCodesAndTheirCommands : Obligations.StatusCodesAndTheirCommands := by
  unfold Obligations.StatusCodesAndTheirCommands
  refine ⟨rfl, rfl, rfl, rfl, rfl, fun st => by cases st <;> decide, fun i s t r ht hr => ?_⟩
  have hstatus : MayAnswer i r.status := exec_answersRightly i s t r ht hr
  refine ⟨fun h => ?_, fun h => ?_, fun h => ?_, fun hi => result_of_valueless hi ht hr⟩
  · rw [h] at hstatus; exact hstatus
  · obtain h | h := h <;> rw [h] at hstatus <;> exact hstatus
  · rw [h] at hstatus; exact hstatus

end Sys2Proof.Machine
end

section
/-! # What a port accepts (R62, R193) -/

namespace Sys2Proof.Machine

/-- The words that stay behind a framed packet: all but the header word and its operands. -/
theorem drop_of_frame {ws rest : List Word} {pkt : Packet} (h : frame ws = some (pkt, rest)) :
    ws.drop (1 + pkt.operands.length) = rest := by
  obtain ⟨b, rfl, -, -⟩ := frame_eq_some h
  rw [Nat.add_comm, List.drop_succ_cons, List.drop_left]

/-- Settles O51: a packet's words go from the front of its own port. -/
theorem portAcceptsItsOldestPacket : Obligations.PortAcceptsItsOldestPacket := by
  unfold Obligations.PortAcceptsItsOldestPacket
  intro s p
  refine ⟨State.accept_of_busy, fun hfree pkt rest hframe => ?_⟩
  rw [State.accept_of_free hfree hframe]
  refine ⟨_, rfl, ?_, fun q hq => portWords_dropWords_other hq s.held _⟩
  rw [portWords_dropWords_same, drop_of_frame hframe]

end Sys2Proof.Machine
end

section
/-! # The arbiter's order is open and fair (R193, R194)

Open: with the place of its port in the wanted order for a wait, the request of the first port is taken, and passing
over the others gives them their places in the rest of the order.  Fair: wait plus place of a request falls with every
other request that is taken, be it one before it or one behind it. -/

namespace Sys2Proof.Machine

/-! ## Every order -/

/-- A taken request waits for no more than any other. -/
theorem waits_le_of_takeNext {rs others : List Request} {r : Request} (h : takeNext rs = some (r, others)) :
    ∀ x ∈ rs, r.waits ≤ x.waits := by
  obtain ⟨before, after, rfl, -, hbefore, hafter⟩ := takeNext_eq_some h
  intro x hx
  obtain hx | rfl | hx := by simpa using hx
  · exact (hbefore x hx).le
  · exact le_rfl
  · exact hafter x hx

/-- Every request waits for as many others as its port's place in the order says. -/
def WaitsByOrder (order : List Nat) (rs : List Request) : Prop := ∀ x ∈ rs, x.waits = order.idxOf x.port

/-- The request taken is then the one on the first port: that one waits for none. -/
theorem WaitsByOrder.takeNext_port {p : Nat} {order : List Nat} {rs others : List Request} {r : Request}
    (h : WaitsByOrder (p :: order) rs) (hp : p ∈ rs.map Request.port) (htake : takeNext rs = some (r, others)) :
    r.port = p := by
  obtain ⟨x, hx, hxp⟩ := List.mem_map.1 hp
  have hle := waits_le_of_takeNext htake x hx
  have hr := h r ((takeNext_perm htake).mem_iff.2 List.mem_cons_self)
  rw [hr, h x hx, hxp, List.idxOf_cons_self, Nat.le_zero] at hle
  by_contra hne
  rw [List.idxOf_cons_ne _ (Ne.symm hne)] at hle
  cases hle

/-- Requests on other ports, passed over, wait by the rest of the order. -/
theorem WaitsByOrder.map_passOver {p : Nat} {order : List Nat} {others : List Request}
    (h : WaitsByOrder (p :: order) others) (hp : p ∉ others.map Request.port) :
    WaitsByOrder order (others.map passOver) := by
  refine List.forall_mem_map.2 fun x hx => ?_
  have hne : p ≠ x.port := fun heq => hp (heq ▸ List.mem_map_of_mem hx)
  rw [passOver_waits, passOver_port, h x hx, List.idxOf_cons_ne _ hne, Nat.succ_sub_one]

/-- Requests that wait by an order of their ports are taken in it. -/
theorem WaitsByOrder.takenPorts_eq {order : List Nat} (hnodup : order.Nodup) {rs : List Request}
    (hperm : order.Perm (rs.map Request.port)) (h : WaitsByOrder order rs) : takenPorts rs.length rs = order := by
  induction order generalizing rs with
  | nil =>
    obtain rfl : rs = [] := by simpa using hperm
    rfl
  | cons p order ih =>
    obtain ⟨hp, horder⟩ := List.nodup_cons.1 hnodup
    cases htake : takeNext rs with
    | none =>
      rw [takeNext_eq_none.1 htake] at hperm
      cases List.perm_nil.1 hperm
    | some taken =>
      obtain ⟨r, others⟩ := taken
      obtain rfl := h.takeNext_port (hperm.mem_iff.1 List.mem_cons_self) htake
      have htaken := takeNext_perm htake
      have hrest : order.Perm (others.map Request.port) := (hperm.trans (htaken.map _)).cons_inv
      have hothers : WaitsByOrder (r.port :: order) others :=
        fun x hx => h x (htaken.mem_iff.2 (List.mem_cons_of_mem r hx))
      have hlater := ih horder (by rwa [map_port_passOver]) (hothers.map_passOver (by rwa [← hrest.mem_iff]))
      rw [List.length_map] at hlater
      rw [htaken.length_eq, List.length_cons, takenPorts, htake]
      exact congrArg (r.port :: ·) hlater

/-- Settles O54: each request waits for as many others as its port's place in the order says. -/
theorem everyArbitrationOrderIsPossible : Obligations.EveryArbitrationOrderIsPossible := by
  unfold Obligations.EveryArbitrationOrderIsPossible
  intro rs order hnodup hperm
  have hwaits : WaitsByOrder order (rs.map fun r => { r with waits := order.idxOf r.port }) :=
    List.forall_mem_map.2 fun _ _ => rfl
  have htaken := hwaits.takenPorts_eq (hperm.nodup_iff.2 hnodup) (by simpa [Function.comp_def] using hperm)
  rw [List.length_map] at htaken
  exact ⟨order.idxOf, htaken⟩

/-! ## Finite time -/

/-- A request in flight is the one taken, or its wait plus its place falls. -/
theorem takeNext_progress {rs others : List Request} {m r : Request} {k : Nat} (htake : takeNext rs = some (m, others))
    (hr : rs[k]? = some r) :
    r = m ∨ ∃ j, others[j]? = some r ∧ (passOver r).waits + j < r.waits + k := by
  obtain ⟨before, after, rfl, rfl, hbefore, -⟩ := takeNext_eq_some htake
  obtain hk | rfl | hk := Nat.lt_trichotomy k before.length
  · -- It stood before the taken one, so it waits for at least one: the wait falls.
    rw [List.getElem?_append_left hk] at hr
    have hlt := hbefore r (List.mem_of_getElem? hr)
    exact .inr ⟨k, by rwa [List.getElem?_append_left hk], by rw [passOver_waits]; omega⟩
  · exact .inl (by simpa using hr.symm)
  · -- It stood behind: it moves up.
    obtain ⟨j, rfl⟩ := Nat.exists_eq_add_of_lt hk
    refine .inr ⟨before.length + j, ?_, by rw [passOver_waits]; omega⟩
    rw [List.getElem?_append_right (by omega)] at hr ⊢
    simpa [Nat.add_assoc] using hr

/-- A port that accepts its next request puts it behind those in flight. -/
theorem State.finish_inFlight (s : State) (p : Nat) : ∃ new, (s.finish p).inFlight = s.inFlight ++ new := by
  rw [State.finish]
  obtain ⟨h, -⟩ | ⟨pkt, rest, -, -, h⟩ := (s.deliver p).accept_cases p
  · exact ⟨[], by rw [h, State.deliver_inFlight, List.append_nil]⟩
  · exact ⟨_, by rw [h, State.deliver_inFlight]⟩

/-- The arbiter's turn answers a request in flight, or brings it nearer. -/
theorem arbiterTurn_progress {s u : State} {k : Nat} {r : Request} (hu : arbiterTurn s = .next u)
    (hr : s.inFlight[k]? = some r) :
    (∃ a, u.sent = s.sent ++ [⟨r.port, a⟩]) ∨
    ∃ j, u.inFlight[j]? = some (passOver r) ∧ (passOver r).waits + j < r.waits + k := by
  obtain ⟨hnone, -⟩ | ⟨m, others, v, htake, hv, rfl⟩ := arbiterTurn_next hu
  · simp [hnone] at hr
  · obtain ⟨bank, x, y, d, st, value, rfl⟩ := execPacket_next hv
    obtain rfl | ⟨j, hj, hlt⟩ := takeNext_progress htake hr
    · exact .inl ⟨_, State.finish_sent (answering_answer ..) r.port⟩
    · obtain ⟨new, hnew⟩ := State.finish_inFlight
        (answering { s.grant m others with secret := bank, xseed := x, sseed := y, draws := d } st value) m.port
      have hplace : (others.map passOver)[j]? = some (passOver r) := by rw [List.getElem?_map, hj, Option.map_some]
      have hbound : j < (others.map passOver).length := (List.getElem?_eq_some_iff.1 hplace).1
      exact .inr ⟨j, by rw [hnew]; exact (List.getElem?_append_left hbound).trans hplace, hlt⟩

/-- No step takes a sent response back. -/
theorem step_sent {s t : State} (h : step s = .next t) : ∃ new, t.sent = s.sent ++ new := by
  obtain ⟨rest, -, harb⟩ | ⟨p, beats, rest, -, -, rfl⟩ | ⟨addr, cell, rest, -, rfl⟩ | ⟨rest, -, -, rfl⟩ :=
    step_cases h
  · obtain ⟨-, -, -, hsame | ⟨d, hd⟩⟩ := arbiterTurn_frame harb
    · exact ⟨[], by rw [hsame, List.append_nil]⟩
    · exact ⟨[d], hd⟩
  · exact ⟨[], by simp⟩
  · exact ⟨[], (List.append_nil _).symm⟩
  · exact ⟨[], (List.append_nil _).symm⟩

/-- A run that goes on did so at its first step, on every machine. -/
theorem coreRun_succ_next {M : Host.Core} {n : Nat} {s t : M.State} (h : M.run (n + 1) s = .next t) :
    ∃ u, M.step s = .next u ∧ M.run n u = .next t := by
  unfold Host.Core.run at h
  split at h
  · rename_i u hu; exact ⟨u, hu, h⟩
  · cases h
  · cases h

/-- The same of this machine, in the words of its `step`. -/
theorem run_succ_next {n : Nat} {s t : State} (h : Host.Core.run Sys2Proof.core (n + 1) s = .next t) :
    ∃ u, step s = .next u ∧ Host.Core.run Sys2Proof.core n u = .next t := coreRun_succ_next h

/-- Nor does a run take one back. -/
theorem run_sent {n : Nat} {s t : State} (h : Host.Core.run Sys2Proof.core n s = .next t) :
    ∃ new, t.sent = s.sent ++ new := by
  induction n generalizing s with
  | zero => cases h; exact ⟨[], (List.append_nil _).symm⟩
  | succ n ih =>
    obtain ⟨u, hu, hrun⟩ := run_succ_next h
    obtain ⟨first, hfirst⟩ := step_sent hu
    obtain ⟨later, hlater⟩ := ih hrun
    exact ⟨first ++ later, by rw [hlater, hfirst, List.append_assoc]⟩

/-- With no turn of the world pending, a run longer than wait plus place of a request sends its response. -/
theorem run_answers {n k : Nat} {s t : State} {r : Request} (hagenda : s.agenda = [])
    (hr : s.inFlight[k]? = some r) (hn : r.waits + k < n) (ht : Host.Core.run Sys2Proof.core n s = .next t) :
    ∃ new a, t.sent = s.sent ++ new ∧ (⟨r.port, a⟩ : Delivery) ∈ new := by
  induction n generalizing s k r with
  | zero => omega
  | succ n ih =>
    obtain ⟨u, hu, hrun⟩ := run_succ_next ht
    have harb : arbiterTurn s = .next u := by rwa [step, hagenda] at hu
    obtain ⟨a, ha⟩ | ⟨j, hj, hlt⟩ := arbiterTurn_progress harb hr
    · obtain ⟨later, hlater⟩ := run_sent hrun
      exact ⟨⟨r.port, a⟩ :: later, a, by rw [hlater, ha, List.append_assoc]; rfl, List.mem_cons_self⟩
    · obtain ⟨-, -, hkept, -⟩ := arbiterTurn_frame harb
      obtain ⟨first, hfirst⟩ := step_sent hu
      obtain ⟨later, a, hlater, ha⟩ := ih (hkept.trans hagenda) hj (by omega) hrun
      exact ⟨first ++ later, a, by rw [hlater, hfirst, List.append_assoc], List.mem_append_right first ha⟩

/-- Settles O55: the response is among those sent since the request was seen. -/
theorem everyRequestIsAnsweredInFiniteTime : Obligations.EveryRequestIsAnsweredInFiniteTime := by
  unfold Obligations.EveryRequestIsAnsweredInFiniteTime
  intro s t k n r hagenda hr hn ht
  obtain ⟨new, a, hsent, ha⟩ := run_answers hagenda hr hn ht
  exact ⟨a, by rwa [hsent, List.drop_left]⟩

end Sys2Proof.Machine
end

section
/-! # A command whose read set was written while it waited (R204) -/

namespace Sys2Proof.Machine

/-- A use of memory in a torn state beside the same use in the untorn one: BUS stays BUS, and a computed value becomes a
drawn one. -/
theorem readWindow_of_torn {s u : State} {lo n width : Nat} {f : List Byte → Word} (htorn : s.torn = true)
    (hu : readWindow { s with torn := false } lo n width f = .next u) :
    (u.answer = some ⟨.bus, 0⟩ ∧ readWindow s lo n width f = .next (answering s .bus 0)) ∨
    (∃ v, u.answer = some ⟨.ok, v⟩) ∧ readWindow s lo n width f
      = .next (answering { s with draws := s.draws + 1 } .ok (cutTo width (Config.freeResult s.draws))) := by
  have hquiet : touchesSideEffect s.cfg lo n = false := by
    rw [← Bool.not_eq_true]
    intro htouches
    rw [readWindow_refused (by exact htouches)] at hu
    cases hu
  cases hread : readBytes s.mem lo n with
  | none =>
    have hfault := readBytes_eq_none.1 hread
    rw [readWindow_bus (by exact hquiet) (by exact hfault)] at hu
    cases hu
    exact .inl ⟨answering_answer .., readWindow_bus hquiet hfault width f⟩
  | some buf =>
    obtain ⟨hlen, hbuf⟩ := readBytes_eq_some.1 hread
    rw [readWindow_quiet width f (by exact hquiet) hlen (by exact hbuf) rfl] at hu
    cases hu
    exact .inr ⟨⟨_, answering_answer ..⟩, by
      rw [readWindow_ok hquiet hlen hbuf, State.respondRead_of_torn htorn]⟩

section
variable {i : Instr} {s u : State} (htorn : s.torn = true) (hu : exec i { s with torn := false } = .next u)
include htorn hu

/-- A command with a read set that succeeds untorn answers a drawn value when torn. -/
theorem exec_torn_ok (hreads : (readSet i).2 ≠ 0) {v : Word} (hv : u.answer = some ⟨.ok, v⟩) :
    exec i s = .next (answering { s with draws := s.draws + 1 } .ok
      (cutTo (resultWidth i) (Config.freeResult s.draws))) := by
  cases exec_reads i with
  | nothing hempty _ => exact absurd hempty hreads
  | window f hf =>
    rw [hf] at hu ⊢
    obtain ⟨hbus, -⟩ | ⟨-, hok⟩ := readWindow_of_torn htorn hu
    · rw [hv] at hbus; cases hbus
    · exact hok

/-- A command that fails untorn fails the same way when torn. -/
theorem exec_torn_failed {st : Status} (hst : st ≠ .ok) (hfailed : u.answer = some ⟨st, 0⟩) :
    exec i s = .next (answering s st 0) := by
  cases exec_reads i with
  | nothing _ hgo =>
    obtain ⟨t, ht, hown⟩ := hgo { s with torn := false } s.mem s.torn
    obtain rfl := Host.Outcome.next.inj (hu.symm.trans ht)
    obtain ⟨r, hr, hframe⟩ := exec_next_failed hu
    obtain rfl := Option.some.inj (hfailed.symm.trans hr)
    rw [hframe hst] at hown
    exact hown
  | window f hf =>
    rw [hf] at hu ⊢
    obtain ⟨hbus, hsame⟩ | ⟨⟨v, hok⟩, -⟩ := readWindow_of_torn htorn hu
    · rw [hfailed] at hbus; cases hbus; exact hsame
    · rw [hfailed] at hok; cases hok; exact absurd rfl hst

end

/-- Settles O45: the one operation through which commands read memory draws the value, and its other outcomes do not
look whether the read set was written. -/
theorem tornBufferGivesAnyValue : Obligations.TornBufferGivesAnyValue := by
  unfold Obligations.TornBufferGivesAnyValue
  intro i s u htorn hu
  exact ⟨fun hreads v hv => ⟨cutTo_lt _ _, exec_torn_ok htorn hu hreads hv⟩,
    fun st hst hfailed => exec_torn_failed htorn hu hst hfailed⟩

end Sys2Proof.Machine
end

section
/-! # Reset (R200, R201, R203) -/

namespace Sys2Proof.Machine

/-! ## The turn -/

/-- A reset of the idle block, as the next turn of the agenda. -/
theorem step_reset_of_idle {s : State} {rest : List Turn} (h : s.agenda = .reset :: rest) (hidle : s.inFlight = []) :
    step s = .next { s with
      agenda := rest, secret := s.cfg.defaultSecret, xseed := 0, sseed := prngMod s.cfg
      inFlight := [], held := [], answer := none, torn := false } := by
  simp only [step, h, takeTurn, resetTurn, hidle]

/-- With a request in flight reset is refused. -/
theorem step_reset_of_busy {s : State} {rest : List Turn} (h : s.agenda = .reset :: rest) (hbusy : s.inFlight ≠ []) :
    step s = .refused .resetInFlight := by
  obtain ⟨r, others, hs⟩ := List.exists_cons_of_ne_nil hbusy
  simp only [step, h, takeTurn, resetTurn, hs]

/-- Settles O57: the turn sets every field that is named. -/
theorem resetSetsArchitecturalState : Obligations.ResetSetsArchitecturalState := by
  unfold Obligations.ResetSetsArchitecturalState
  refine ⟨⟨rfl, rfl, rfl, rfl⟩, fun s rest hagenda hidle => ?_⟩
  exact ⟨_, step_reset_of_idle hagenda hidle, rfl, rfl, rfl, rfl, rfl, rfl, rfl, rfl⟩

/-- Settles O58: the turn by whether a request is in flight. -/
theorem resetWithRequestInFlightIsRefused : Obligations.ResetWithRequestInFlightIsRefused := by
  unfold Obligations.ResetWithRequestInFlightIsRefused
  intro s rest hagenda
  exact ⟨step_reset_of_busy hagenda, fun hidle => ⟨_, step_reset_of_idle hagenda hidle, rfl, rfl, rfl, rfl⟩⟩

/-! ## The state after reset -/

/-- Settles O49: memory lists nothing, and there is nothing at the ports. -/
theorem resetIsLegal : Obligations.ResetIsLegal where
  memory := reset_mem_wf
  ports := by decide
  onePerPort := List.nodup_nil
  requestPorts := by simp [State.reset]
  framed := by simp [State.reset]
  heldPorts := by simp [State.reset]
  noneStalled _ _ := rfl
  answered := rfl
  idle := rfl

/-! ## The boot sequence -/

/-- DEFSECRET is LDSECRET of the transcribed literals, which then stand in the bank; the two seeds are stored after
it, and SCREATE advances its 0 once. -/
theorem execAll_boot (s : State) :
    execAll (expandPseudo .defsecret ++ [.xcreate 0, .screate 0]) s
      = .next (answering { s with
          secret := defaultConfig.defaultSecret, xseed := 0, sseed := prngMod s.cfg } .ok 0) := by
  have hload : expandPseudo .defsecret = expandPseudo (.ldsecret 0xa0761d6478bd642f 0xe7037ed1a0b428db
      0x8ebc6af09c88c6e3 0x589965cc75374cc3 0x1d8e4e27c47d124f) := rfl
  rw [hload, execAll_ldsecret, execAll_cons (exec_xcreate 0 _), execAll_cons (exec_screate 0 _), execAll_nil,
    zero_add]
  rfl

/-- Settles O59: both ways lead to the default secret, 0 and `PRNG_MOD`. -/
theorem resetIsTheBootSequence : Obligations.ResetIsTheBootSequence := by
  unfold Obligations.ResetIsTheBootSequence
  refine ⟨⟨_, execAll_boot State.reset, rfl, rfl, rfl⟩, fun s rest hagenda hidle hliterals => ?_⟩
  exact ⟨_, _, execAll_boot s, step_reset_of_idle hagenda hidle, hliterals.symm, rfl, rfl⟩

end Sys2Proof.Machine
end
